-- ==== Sys2Proof/Word.lean ====
section
/-! DEFINITION. The widths the spec fixes, as types (spec/00_scope.md R4, R5): bit vectors numbered from the
least significant bit, as R5 numbers them. A register number is an index, not a word, so it is a `Fin`. -/

namespace Sys2Proof

/-- One byte of memory (R20). -/
abbrev Byte := BitVec 8

/-- A halfword, the unit the four loads read; also the displacement field `d` of form D (R38). -/
abbrev Half := BitVec 16

/-- An instruction word, `ILEN = 32` (R4, R35). -/
abbrev Word := BitVec 32

/-- The contents of a general register and an effective address, `XLEN = 64` (R4, R10, R50). -/
abbrev DWord := BitVec 64

/-- A memory address and the program counter, `ADDR_BITS = 32` (R4, R14, R20). -/
abbrev Addr := BitVec 32

/-- A general-register number, 0 to 31, `NGPR = 32` (R10, R39). -/
abbrev Reg := Fin 32

end Sys2Proof
end

