-- ==== Sys2Proof/Machine/Bytes.lean ====
section
/-! DEFINITION. Byte order, decided once: the byte at the lowest address is the most significant
(spec/20_memory.md R23, R24). Data, instruction fetch and the decoder all use these two functions. -/

namespace Sys2Proof

/-- The number whose bytes, most significant first, are the list: `M[a] ++ M[a+1] ++ ...` (R23). -/
def bigEndian : List Byte → Nat
  | [] => 0
  | b :: bs => b.toNat * 256 ^ bs.length + bigEndian bs

/-- The `n` bytes of a number, most significant first: `v[8n-1:8n-8]` down to `v[7:0]` (R23). -/
def bigEndianBytes : Nat → Nat → List Byte
  | 0, _ => []
  | n + 1, v => BitVec.ofNat 8 (v / 256 ^ n) :: bigEndianBytes n v

end Sys2Proof
end

