-- ==== Sys2Proof/Config.lean ====
section
/-! DEFINITION. The parameters of spec/00_scope.md R4 that are not widths of types, and the values the model's one
reset state gives to what R4 and R19 leave OPEN. -/

namespace Sys2Proof

/-- `INVALID_FORM_POLICY` (R4, R43, R56; spec/92_eei_decisions.md D8): what an invalid form of an update load does. -/
inductive InvalidFormPolicy where
  /-- The default: the step is a refusal with reason `invalid_form` (R43). Safe. -/
  | refuse
  /-- The form executes as the emulator's snapshot does (R56). Unsafe if the hardware differs (D8). -/
  | snapshot
deriving DecidableEq, Repr

namespace Config

/-- `ADDR_BITS` (R4, D2): there are `2 ^ addrBits` byte addresses. The width of `Addr` is this number. -/
abbrev addrBits : Nat := 32

/-- What an address the memory does not list reads as: no value, because an unlisted address is one that
`Mapped` does not hold of (R22, D5). Reading it faults. Safe (log entry 6). -/
def unlistedByte : Option Byte := none

/-- The launch pc of `State.reset`. DESIGN CHOICE, unsafe: R4 leaves `entry` OPEN (log entry 2). -/
def resetEntry : Addr := 0#32

/-- `text_end` of `State.reset`: equal to the entry, so that the launch program is the empty one.
DESIGN CHOICE, unsafe: R4 leaves `text_end` OPEN (log entry 3). -/
def resetTextEnd : Addr := 0#32

/-- The policy of `State.reset` is the default R4 names. -/
def resetPolicy : InvalidFormPolicy := .refuse

/-- What each general register holds at `State.reset`. DESIGN CHOICE, unsafe: R19 gives no value (log entry 1). -/
def resetGpr : DWord := 0#64

end Config

end Sys2Proof
end

