-- ==== Sys2Proof/Syntax.lean ====
section
/-! DEFINITION. The instructions of spec/opcode_table.json, one constructor per row (spec/00_scope.md R2). -/

namespace Sys2Proof

/-- The four instructions in scope. Operands stand in the order of the assembler syntax (spec/30_encoding.md R45),
with the base register before the displacement. -/
inductive Instr where
  /-- `lha RT, d(RA0)`: Load Half Word Algebraic (spec/40_load_half_algebraic.md R52). -/
  | lha (rt ra : Reg) (d : Half)
  /-- `lhau RT, d(RA)`: Load Half Word Algebraic with Update (R53). -/
  | lhau (rt ra : Reg) (d : Half)
  /-- `lhaux RT, RA, RB`: Load Half Word Algebraic with Update Indexed (R54). -/
  | lhaux (rt ra rb : Reg)
  /-- `lhax RT, RA0, RB`: Load Half Word Algebraic Indexed (R55). -/
  | lhax (rt ra rb : Reg)
deriving DecidableEq, Repr

end Sys2Proof
end

