-- ==== Sys2Proof/Machine/State.lean ====
section
/-! DEFINITION. The state of the machine as plain data (spec/10_state.md R18), the reasons a step can stop
(spec/60_exceptions.md R61, R62), and the state right after reset. -/

namespace Sys2Proof.Machine

/-- Memory: the mapped bytes, each with its address. An address the list does not hold is one `Mapped` is false of
(R22), so the list is both `Mapped` and the contents. -/
abbrev Memory := List Host.Cell

/-- The canonical form of a memory: addresses strictly rising and inside the address space (R20). No entry can equal
what an unlisted address reads as, since that is no value (`Config.unlistedByte`). -/
abbrev Memory.wf (m : Memory) : Prop :=
  m.Pairwise (fun p q => p.1 < q.1) ∧ ∀ c ∈ m, c.1 < 2 ^ Config.addrBits

/-- Registers the spec names and gives neither number nor width of (R15, R17): register (or field) number and contents,
each an uninterpreted number, so that no layout is assumed. A number the list does not hold has contents 0. -/
abbrev OpaqueBank := List (Nat × Nat)

/-- The canonical form of an opaque bank: numbers strictly rising, no contents of 0 listed. -/
abbrev OpaqueBank.wf (b : OpaqueBank) : Prop :=
  b.Pairwise (fun p q => p.1 < q.1) ∧ ∀ c ∈ b, c.2 ≠ 0

/-- XER (R15): at least the flags CA, OV and SO, and whatever else it holds, with no position or width given. -/
structure Xer where
  /-- `xer.CA`. -/
  ca : Bool
  /-- `xer.OV`. -/
  ov : Bool
  /-- `xer.SO`. -/
  so : Bool
  /-- Any further content, uninterpreted. -/
  other : Nat
deriving DecidableEq, Repr

/-- The complete architectural state of R18, and the two launch parameters of R71 a step reads. -/
structure State where
  /-- The general registers `x[0]` to `x[31]` (R10). -/
  x : Vector DWord 32
  /-- The program counter (R13, R14). -/
  pc : Addr
  /-- Memory: `Mapped` and the mapped bytes (R20, R22). -/
  mem : Memory
  /-- The condition register, by field number, opaque (R15). -/
  cr : OpaqueBank
  /-- The status register XER, opaque (R15). -/
  xer : Xer
  /-- The floating-point registers, opaque (R17). -/
  fprs : OpaqueBank
  /-- The vector registers, opaque (R17). -/
  vrs : OpaqueBank
  /-- The launch parameter `text_end`: the pc value at which a run ends (R4, R72). No step changes it. -/
  textEnd : Addr
  /-- The launch parameter `INVALID_FORM_POLICY` (R4, R71). No step changes it. -/
  policy : InvalidFormPolicy
deriving DecidableEq, Repr

/-- The one fault of the spec: its own outcome, terminal, changing no state (R61, R65). -/
inductive Fault where
  /-- Raised by `MemRead` on a fetch or a data read that R22 does not admit (a byte unmapped, or past the top of
  the address space); carries the first address of the access. Safe: the model stops where the spec does not know. -/
  | storageFault (addr : Addr)
deriving DecidableEq, Repr

/-- The refusals of the closed list of R62, and the host's mark of an instruction with no meaning. -/
inductive Refusal where
  /-- No meaning yet for the instruction of this mnemonic. Only an arm of `exec` may answer it; none does. Safe. -/
  | notModelled (mnemonic : String)
  /-- `pc_misaligned`: the pc is no multiple of 4 (R14, R64 check 1). Raised by fetch. Safe. -/
  | pcMisaligned
  /-- `pc_wrap`: completing the instruction would take the pc to 0 and `text_end ≠ 0` (R14, R64 check 6). Raised when
  an instruction completes. Safe. -/
  | pcWrap
  /-- `rc_set`: an `lhax` or `lhaux` pattern with `w[0] = 1` (R42). Raised by fetch. Safe. -/
  | rcSet
  /-- `not_in_spec`: the word matches no row of the opcode map (R44). Raised by fetch. Safe. -/
  | notInSpec
  /-- `invalid_form`: `lhau` or `lhaux` with `RA = 0` or `RA = RT` under the policy `refuse` (R43). Raised by those two
  meanings. Safe. -/
  | invalidForm
deriving DecidableEq, Repr

/-- What a step or a meaning answers (R7). -/
abbrev Result := Host.Outcome State Fault Refusal

/-- The machine after reset. The spec gives no reset value (R19, R70): this is ONE launch state, with the empty program
and nothing mapped. Every value in it but the policy is a DESIGN CHOICE, unsafe (log entries 1, 2, 3, 6, 7); no statement
rests on one. The policy is the default of R4. -/
def State.reset : State where
  x := Vector.replicate 32 Config.resetGpr
  pc := Config.resetEntry
  mem := []
  cr := []
  xer := { ca := false, ov := false, so := false, other := 0 }
  fprs := []
  vrs := []
  textEnd := Config.resetTextEnd
  policy := Config.resetPolicy

end Sys2Proof.Machine
end

