-- ==== Sys2Proof/Machine/Ops.lean ====
section
/-! DEFINITION. The shared operations over registers, memory and the pc: the pseudocode primitives of
spec/00_scope.md R6, the memory rules of spec/20_memory.md, and how a step stops or completes
(spec/60_exceptions.md R61, R62, R64, R65). -/

namespace Sys2Proof.Machine

/-! ### Stopping

The spec has no trap entry (R65): no saved pc, no vector, no mode. What stands in its place is one terminal fault,
which changes no state, and the refusals. -/

/-- `raise StorageFault(addr)`: the one fault, terminal and without state change (R61, R65). -/
def raiseStorageFault (addr : Addr) : Result := .fault (.storageFault addr)

/-- `refuse(reason)`: the spec has no meaning for the situation (R62). -/
def refuse (reason : Refusal) : Result := .refused reason

/-! ### General registers -/

/-- `x[i]`: every register reads as what it holds; none is hardwired (R6, R11). -/
def State.readX (s : State) (r : Reg) : DWord := s.x[r]

/-- `x[i] <- v`: every register, `r0` among them, takes what is written (R6, R11). -/
def State.writeX (s : State) (r : Reg) (v : DWord) : State := { s with x := s.x.set r v }

/-! ### Memory -/

/-- The byte listed at an address, if any. -/
def Memory.lookup : Memory → Nat → Option Byte
  | [], _ => Config.unlistedByte
  | (k, b) :: m, a => if a = k then some b else Memory.lookup m a

/-- `M[a]`, where `a` is inside the address space and `Mapped(a)`; no value otherwise (R20, R22). -/
def Memory.byte (m : Memory) (a : Nat) : Option Byte :=
  if a < 2 ^ Config.addrBits then m.lookup a else none

/-- `Mapped(a)` (R22). -/
def Memory.mapped (m : Memory) (a : Nat) : Bool := (m.byte a).isSome

/-- The `n` bytes from address `a` upward, where every one of them is mapped (R22). -/
def Memory.bytes (m : Memory) : Nat → Nat → Option (List Byte)
  | _, 0 => some []
  | a, n + 1 =>
    match m.byte a with
    | none => none
    | some b => (Memory.bytes m (a + 1) n).map (b :: ·)

/-- `MemRead(addr, n)`: the value of an admitted access, most significant byte first (R22, R23); no value where the
access is not admitted. Reading changes nothing (R29). -/
def Memory.memRead (m : Memory) (addr : Addr) (n : Nat) : Option (BitVec (8 * n)) :=
  (m.bytes addr.toNat n).map fun bs => BitVec.ofNat (8 * n) (bigEndian bs)

/-- Lists byte `b` at address `a`, in the canonical form. -/
def Memory.insert : Memory → Nat → Byte → Memory
  | [], a, b => [(a, b)]
  | (k, c) :: m, a, b =>
    if a < k then (a, b) :: (k, c) :: m
    else if a = k then (a, b) :: m
    else (k, c) :: Memory.insert m a b

/-- Stores one byte; outside the address space there is nothing to store to. -/
def Memory.putByte (m : Memory) (a : Nat) (b : Byte) : Memory :=
  if a < 2 ^ Config.addrBits then m.insert a b else m

/-- Stores bytes from address `a` upward. -/
def Memory.putBytes : Memory → Nat → List Byte → Memory
  | m, _, [] => m
  | m, a, b :: bs => Memory.putBytes (m.putByte a b) (a + 1) bs

/-- `MemWrite(addr, n, v)`: `v[8n-1:8n-8]` at `addr` and so on down to `v[7:0]` at `addr+n-1` (R6, R23). No instruction
uses it; the launch's placing of a program does (`State.placeWord`). -/
def Memory.memWrite (m : Memory) (addr : Addr) (n : Nat) (v : BitVec (8 * n)) : Memory :=
  m.putBytes addr.toNat (bigEndianBytes n v.toNat)

/-! ### The pc and the completion of an instruction -/

/-- The run has ended: `pc == text_end` (R72). -/
def State.ended (s : State) : Bool := s.pc == s.textEnd

/-- The pc is a multiple of 4 (R14, R64 check 1). -/
def State.pcAligned (s : State) : Bool := s.pc.toNat % 4 == 0

/-- `pc + 4` does not wrap to 0, unless `text_end == 0` (R14, R64 check 6). -/
def State.canAdvance (s : State) : Bool := s.pc + 4#32 != 0#32 || s.textEnd == 0#32

/-- `pc <- pc + 4` (R13, R14). -/
def State.advancePc (s : State) : State := { s with pc := s.pc + 4#32 }

/-- Check 6 of R64, then the register writes and the pc update together. -/
def complete (s : State) (writes : State → State) : Result :=
  if s.canAdvance then .next (writes s).advancePc else refuse .pcWrap

/-- Check 5 of R64 and what follows: the one data access, a read of two bytes at `EA[31:0]` (R21, R27), whose failure
raises `StorageFault(EA[31:0])`; then the instruction completes with the writes its rule makes of the halfword. -/
def loadHalf (s : State) (addr : Addr) (writes : Half → State → State) : Result :=
  match s.mem.memRead addr 2 with
  | none => raiseStorageFault addr
  | some h => complete s (writes h)

end Sys2Proof.Machine
end

