-- ==== Sys2Proof/Machine/Operands.lean ====
section
/-! DEFINITION. Every operand form the spec gives (spec/30_encoding.md R38, R39), the effective address and the
loaded value (spec/40_load_half_algebraic.md R50, R51), and the invalid forms (R43). -/

namespace Sys2Proof.Machine

/-- An operand written `RA0`: the literal 64-bit zero when the field is 0, not `r0` (R11, R39). -/
def operandRA0 (s : State) (ra : Reg) : DWord := if ra = 0 then 0#64 else s.readX ra

/-- An operand written `RA`: the register for every field value, 0 too (R39). -/
def operandRA (s : State) (ra : Reg) : DWord := s.readX ra

/-- The operand `RB` always names a register (R39). -/
def operandRB (s : State) (rb : Reg) : DWord := s.readX rb

/-- The displacement as it is used: `sext_64(d)`, not scaled (R38). -/
def displacement (d : Half) : DWord := d.signExtend 64

/-- `EA = base + offset` modulo `2^64`; the carry is dropped (R50). -/
def effectiveAddress (base offset : DWord) : DWord := base + offset

/-- The address presented to memory: `EA[31:0]` (R21). -/
def memAddress (ea : DWord) : Addr := ea.extractLsb' 0 32

/-- The value written to `x[RT]`: `sext_64(h)` (R51; spec/90_conflicts.md C1). -/
def loadedValue (h : Half) : DWord := h.signExtend 64

/-- R43: the invalid forms of an update load. -/
def invalidForm (rt ra : Reg) : Bool := ra == 0 || ra == rt

/-- Check 4 of R64: under the policy `refuse` an invalid form is refused before anything is read; under `snapshot` it
goes on, as R56 says. -/
def checkForm (s : State) (rt ra : Reg) (rest : Result) : Result :=
  if invalidForm rt ra && s.policy == .refuse then refuse .invalidForm else rest

end Sys2Proof.Machine
end

