-- ==== Sys2Proof/Machine/LoadHalfAlgebraic.lean ====
section
/-! DEFINITION. The Load Half Word Algebraic family (spec/40_load_half_algebraic.md R52 to R56). Each meaning reads all
its operands in the state before the instruction, so a source that is also the destination is read first. -/

namespace Sys2Proof.Machine

/-- `lha RT, d(RA0)` (R52). -/
def execLha (rt ra : Reg) (d : Half) (s : State) : Result :=
  let ea := effectiveAddress (operandRA0 s ra) (displacement d)
  loadHalf s (memAddress ea) fun h s => s.writeX rt (loadedValue h)

/-- `lhau RT, d(RA)` (R53): all 64 bits of EA go back to `RA`, after the load (R50, R56). -/
def execLhau (rt ra : Reg) (d : Half) (s : State) : Result :=
  let ea := effectiveAddress (operandRA s ra) (displacement d)
  checkForm s rt ra <|
    loadHalf s (memAddress ea) fun h s => (s.writeX rt (loadedValue h)).writeX ra ea

/-- `lhaux RT, RA, RB` (R54): all 64 bits of EA go back to `RA`, after the load (R50, R56). -/
def execLhaux (rt ra rb : Reg) (s : State) : Result :=
  let ea := effectiveAddress (operandRA s ra) (operandRB s rb)
  checkForm s rt ra <|
    loadHalf s (memAddress ea) fun h s => (s.writeX rt (loadedValue h)).writeX ra ea

/-- `lhax RT, RA0, RB` (R55). -/
def execLhax (rt ra rb : Reg) (s : State) : Result :=
  let ea := effectiveAddress (operandRA0 s ra) (operandRB s rb)
  loadHalf s (memAddress ea) fun h s => s.writeX rt (loadedValue h)

end Sys2Proof.Machine
end

