-- ==== Sys2Proof/Machine/Dispatch.lean ====
section
/-! DEFINITION. One arm per instruction of spec/opcode_table.json. -/

namespace Sys2Proof.Machine

def exec (i : Instr) (s : State) : Host.Outcome State Fault Refusal :=
  match i with
  | .lha rt ra d => Sys2Proof.Machine.execLha rt ra d s
  | .lhau rt ra d => Sys2Proof.Machine.execLhau rt ra d s
  | .lhaux rt ra rb => Sys2Proof.Machine.execLhaux rt ra rb s
  | .lhax rt ra rb => Sys2Proof.Machine.execLhax rt ra rb s

end Sys2Proof.Machine
end

