-- ==== Sys2Proof/WellFormed.lean ====
section
/-! DEFINITION. Well-formed instructions: the terms that are no invalid form (spec/30_encoding.md R43). Register
numbers and displacements are in range by their types (R38, R39: every value of a field is legal). -/

namespace Sys2Proof

/-- R43: `lhau` and `lhaux` are invalid forms when `RA = 0` or `RA = RT`; `lha` and `lhax` have none. An invalid
form still decodes to its instruction and encodes; what it does is `INVALID_FORM_POLICY`'s to say. -/
def Instr.wellFormed : Instr → Bool
  | .lha _ _ _ => true
  | .lhau rt ra _ => ra != 0 && ra != rt
  | .lhaux rt ra _ => ra != 0 && ra != rt
  | .lhax _ _ _ => true

end Sys2Proof
end

