-- ==== Sys2Proof/Decode.lean ====
section
/-! DEFINITION. The decoder, total on any word and any bytes, and the encoder, both from the field layouts of
forms D and X and the opcode map of spec/30_encoding.md (R35 to R44). -/

namespace Sys2Proof

/-- Why bytes are no instruction of the spec. -/
inductive Reject where
  /-- The word has the `lhax` or `lhaux` pattern with `w[0] = 1` (R42). -/
  | rcSet
  /-- The word matches no row of the opcode map (R44). -/
  | notInSpec
  /-- There are fewer than the four bytes an instruction takes (R35). Fetch never answers it: it reads four. -/
  | tooFewBytes
deriving DecidableEq, Repr

/-- `OPCD = w[31:26]` (R36, R37). -/
def fieldOPCD (w : Word) : BitVec 6 := w.extractLsb' 26 6

/-- `RT = w[25:21]` (R39). -/
def fieldRT (w : Word) : Reg := (w.extractLsb' 21 5).toFin

/-- `RA = w[20:16]` (R39). -/
def fieldRA (w : Word) : Reg := (w.extractLsb' 16 5).toFin

/-- `RB = w[15:11]` (R39). -/
def fieldRB (w : Word) : Reg := (w.extractLsb' 11 5).toFin

/-- `d = w[15:0]` (R38). -/
def fieldD (w : Word) : Half := w.extractLsb' 0 16

/-- `XO = w[10:1]` (R37). -/
def fieldXO (w : Word) : BitVec 10 := w.extractLsb' 1 10

/-- `Rc = w[0]` (R37). -/
def fieldRc (w : Word) : BitVec 1 := w.extractLsb' 0 1

/-- Decoding one word (R41), with the two rejections of R42 and R44. -/
def decode (w : Word) : Except Reject Instr :=
  if fieldOPCD w = 42#6 then .ok (.lha (fieldRT w) (fieldRA w) (fieldD w))
  else if fieldOPCD w = 43#6 then .ok (.lhau (fieldRT w) (fieldRA w) (fieldD w))
  else if fieldOPCD w = 31#6 ∧ fieldXO w = 343#10 then
    if fieldRc w = 0#1 then .ok (.lhax (fieldRT w) (fieldRA w) (fieldRB w)) else .error .rcSet
  else if fieldOPCD w = 31#6 ∧ fieldXO w = 375#10 then
    if fieldRc w = 0#1 then .ok (.lhaux (fieldRT w) (fieldRA w) (fieldRB w)) else .error .rcSet
  else .error .notInSpec

/-- Decoding bytes in memory order: exactly four are read (R35), most significant first (R26). -/
def decodeBytes : List Byte → Except Reject (Instr × List Byte)
  | b0 :: b1 :: b2 :: b3 :: rest =>
    match decode (BitVec.ofNat 32 (bigEndian [b0, b1, b2, b3])) with
    | .ok i => .ok (i, rest)
    | .error r => .error r
  | _ => .error .tooFewBytes

/-- Form D (R36): `OPCD`, `RT`, `RA`, `d` tile the word. -/
def encodeD (opcd : BitVec 6) (rt ra : Reg) (d : Half) : Word :=
  opcd ++ (BitVec.ofFin rt : BitVec 5) ++ (BitVec.ofFin ra : BitVec 5) ++ d

/-- Form X (R37) with `OPCD = 31` and `Rc = 0`: `OPCD`, `RT`, `RA`, `RB`, `XO`, `Rc` tile the word. -/
def encodeX (xo : BitVec 10) (rt ra rb : Reg) : Word :=
  31#6 ++ (BitVec.ofFin rt : BitVec 5) ++ (BitVec.ofFin ra : BitVec 5) ++ (BitVec.ofFin rb : BitVec 5) ++ xo ++ 0#1

/-- The word of an instruction (R36, R37, R40). -/
def encode : Instr → Word
  | .lha rt ra d => encodeD 42#6 rt ra d
  | .lhau rt ra d => encodeD 43#6 rt ra d
  | .lhaux rt ra rb => encodeX 375#10 rt ra rb
  | .lhax rt ra rb => encodeX 343#10 rt ra rb

/-- The instruction the decoder reads from the bits `w` of an instruction of `nbits` bits, bit 0 the least
significant of its one 32-bit word (the numbering of spec/opcode_table.json); bits at and above `nbits` are 0. The word is
laid out as the hardware stores it (R26) and given to `decodeBytes`; a value of more than 32 bits is no instruction. -/
def decodeTableWord (nbits w : Nat) : Option Instr :=
  if w % 2 ^ nbits < 2 ^ 32 then
    match decodeBytes (bigEndianBytes 4 (w % 2 ^ nbits)) with
    | .ok (i, _) => some i
    | .error _ => none
  else none

end Sys2Proof
end

