-- ==== Sys2Proof/Machine/Fetch.lean ====
section
/-! DEFINITION. What a step does before the instruction's own rule: the end-of-run test
(spec/70_reset_and_hazards.md R72), then checks 1 to 3 of spec/60_exceptions.md R64; and how a word is placed where it is
fetched. -/

namespace Sys2Proof.Machine

/-- The instruction a step is to run, or the outcome the step has without one. -/
inductive Fetched where
  | run (i : Instr)
  | stop (o : Result)

/-- The refusal of a word the decoder rejects (R62, R64 check 3). Fetch reads four bytes, so `tooFewBytes` does not
arise; it is refused like any other bytes the spec gives no meaning. -/
def rejectReason : Reject → Refusal
  | .rcSet => .rcSet
  | .notInSpec => .notInSpec
  | .tooFewBytes => .notInSpec

/-- `MemRead(pc, 4)` (R26). -/
def State.fetchWord (s : State) : Option Word := s.mem.memRead s.pc 4

/-- The end-of-run test, where the state is final and stays as it is (R72; DESIGN CHOICE, log entry 4); then the pc is a
multiple of 4, the fetch is admitted, and the word decodes (R64 checks 1, 2 and 3). -/
def fetch (s : State) : Fetched :=
  if s.ended then .stop (.next s)
  else if s.pcAligned then
    match s.fetchWord with
    | none => .stop (raiseStorageFault s.pc)
    | some w =>
      match decode w with
      | .error r => .stop (refuse (rejectReason r))
      | .ok i => .run i
  else .stop (refuse .pcMisaligned)

/-- The launch's placing of one instruction word at the pc (R71): the word is stored as fetch reads it, the pc becomes a
multiple of 4 (it stays as it is where it is one), and where the run had ended at the pc, the program's end moves past the
word. -/
def State.placeWord (s : State) (w : Word) : State :=
  let at4 : Addr := s.pc &&& 0xFFFFFFFC#32
  { s with
    pc := at4
    mem := s.mem.memWrite at4 4 w
    textEnd := if s.textEnd = at4 then at4 + 4#32 else s.textEnd }

end Sys2Proof.Machine
end

