-- ==== Sys2Proof/Machine/Step.lean ====
section
/-! DEFINITION. One step of the machine: the end-of-run test and the checks of fetch, then the instruction's rule
(spec/INDEX.md, Reading order; spec/60_exceptions.md R64). -/

namespace Sys2Proof.Machine

/-- One step. -/
def step (s : State) : Host.Outcome State Fault Refusal :=
  match fetch s with
  | .stop o => o
  | .run i => exec i s

/-- The state with an instruction of `nbits` bits `w` placed where the next step fetches (log entry 3). -/
def State.withFetchWord (s : State) (nbits w : Nat) : State :=
  s.placeWord (BitVec.ofNat 32 (w % 2 ^ nbits))

end Sys2Proof.Machine
end

