-- ==== Sys2Proof/Machine/Flags.lean ====
section
/-! DEFINITION. Condition codes and status flags. The spec gives no flag computation: no instruction in scope reads or
writes CR or XER (spec/10_state.md R15; "Flags written: none" in R52 to R55). What stands here is the one value the frame
statements speak of, and how the contents of an opaque bank are read. -/

namespace Sys2Proof.Machine

/-- All the condition-register and status-register state there is (R15): CR and XER, whole. -/
def State.flags (s : State) : OpaqueBank × Xer := (s.cr, s.xer)

/-- The contents of register or field `n` of an opaque bank, 0 where the bank lists none (R15, R17). -/
def OpaqueBank.contents : OpaqueBank → Nat → Nat
  | [], _ => 0
  | (k, v) :: b, n => if n = k then v else OpaqueBank.contents b n

end Sys2Proof.Machine
end

