-- ==== Sys2Proof/Safety.lean ====
section
/-! DEFINITION. The terms claims are stated in: what an instruction reads, writes and addresses, as the spec's own lists
give it (spec/10_state.md R12; spec/40_load_half_algebraic.md R50); runs and their end (spec/70_reset_and_hazards.md
R72); and the invariants of the machine. -/

namespace Sys2Proof

/-- The destination `RT` (R12). -/
def Instr.dest : Instr → Reg
  | .lha rt _ _ => rt
  | .lhau rt _ _ => rt
  | .lhaux rt _ _ => rt
  | .lhax rt _ _ => rt

/-- The registers an instruction writes (R12, "writes"). -/
def Instr.writes : Instr → List Reg
  | .lha rt _ _ => [rt]
  | .lhau rt ra _ => [rt, ra]
  | .lhaux rt ra _ => [rt, ra]
  | .lhax rt _ _ => [rt]

/-- The registers an instruction reads (R12, "reads"): `RA0` with field 0 reads none. -/
def Instr.reads : Instr → List Reg
  | .lha _ ra _ => if ra = 0 then [] else [ra]
  | .lhau _ ra _ => [ra]
  | .lhaux _ ra rb => [ra, rb]
  | .lhax _ ra rb => if ra = 0 then [rb] else [ra, rb]

namespace Machine

/-- The effective address of an instruction in a state, form by form (R50). -/
def effectiveAddressOf (i : Instr) (s : State) : DWord :=
  match i with
  | .lha _ ra d => (if ra = 0 then 0#64 else s.x[ra]) + d.signExtend 64
  | .lhau _ ra d => s.x[ra] + d.signExtend 64
  | .lhaux _ ra rb => s.x[ra] + s.x[rb]
  | .lhax _ ra rb => (if ra = 0 then 0#64 else s.x[ra]) + s.x[rb]

/-- The address an instruction presents to memory: `EA[31:0]` (R21). -/
def dataAddress (i : Instr) (s : State) : Addr := (effectiveAddressOf i s).extractLsb' 0 32

/-- The instruction is an invalid form and the policy refuses it (R43, R64 check 4). -/
abbrev refusedForm (i : Instr) (s : State) : Prop := i.wellFormed = false ∧ s.policy = .refuse

/-- `k` steps take `s` to `t`, with no fault and no refusal. -/
def Reaches (k : Nat) (s t : State) : Prop := Sys2Proof.core.run k s = .next t

/-- A safe run (R72): it ends successfully, the pc having reached `text_end` with no fault and no refusal. -/
def EndsSuccessfully (s t : State) : Prop := ∃ k, Reaches k s t ∧ t.pc = t.textEnd

/-- What every run keeps: memory and the opaque banks in their canonical form, the pc a multiple of 4 (R14). -/
def State.Inv (s : State) : Prop :=
  s.mem.wf ∧ s.cr.wf ∧ s.fprs.wf ∧ s.vrs.wf ∧ s.pc.toNat % 4 = 0

/-- What R71 asks of a launch, said of what is left of the program: the pc and `text_end` are multiples of 4, the pc has
not passed `text_end`, and every program byte from the pc up to `text_end` is mapped. DESIGN CHOICE, log entry 22: "from
entry up to but not including text_end" is read in unsigned order. R71 does not say which bytes it names when `text_end = 0`
and `entry > 0`, a launch R14 allows that runs to the top of the address space; no such launch is ready in this sense. -/
def State.ProgramReady (s : State) : Prop :=
  s.pc.toNat % 4 = 0 ∧ s.textEnd.toNat % 4 = 0 ∧ s.pc.toNat ≤ s.textEnd.toNat ∧
    ∀ a, s.pc.toNat ≤ a → a < s.textEnd.toNat → s.mem.mapped a = true

end Machine

end Sys2Proof
end

