-- ==== Sys2Proof/Certificates/Slice0/Obligations.lean ====
section
/-! DEFINITION. The statements for the provers, each naming the rule of the spec it comes from. Bit slices are written
with the spec's own bounds (spec/00_scope.md R5: `w[hi:lo]` is `w.extractLsb hi lo`). -/

open Sys2Proof Sys2Proof.Machine

/-! ### Encoding (spec/30_encoding.md) -/

/-- Every instruction, invalid forms among them, is read back from its own word, with every operand (R36, R37, R40, R41). -/
def Obligations.DecodeOfEncodeIsTheInstruction : Prop :=
  ∀ i : Instr, decode (encode i) = .ok i

/-- A word that decodes is the word of what it decodes to: the fields tile the word, so no bit is dropped (R36, R37). -/
def Obligations.EncodeOfDecodeIsTheWord : Prop :=
  ∀ (w : Word) (i : Instr), decode w = .ok i → encode i = w

/-- A word is the instruction of a row when `w AND mask == match`, with R40's four pairs. -/
def Obligations.DecodeFollowsMatchAndMask : Prop :=
  ∀ w : Word,
    ((∃ rt ra d, decode w = .ok (.lha rt ra d)) ↔ w &&& 0xFC000000#32 = 0xA8000000#32) ∧
    ((∃ rt ra d, decode w = .ok (.lhau rt ra d)) ↔ w &&& 0xFC000000#32 = 0xAC000000#32) ∧
    ((∃ rt ra rb, decode w = .ok (.lhaux rt ra rb)) ↔ w &&& 0xFC0007FF#32 = 0x7C0002EE#32) ∧
    ((∃ rt ra rb, decode w = .ok (.lhax rt ra rb)) ↔ w &&& 0xFC0007FF#32 = 0x7C0002AE#32)

/-- R41, field by field; every other word is no instruction. -/
def Obligations.DecodeReadsTheFields : Prop :=
  ∀ w : Word,
    (w.extractLsb 31 26 = 42#6 →
      decode w = .ok (.lha (w.extractLsb 25 21).toFin (w.extractLsb 20 16).toFin (w.extractLsb 15 0))) ∧
    (w.extractLsb 31 26 = 43#6 →
      decode w = .ok (.lhau (w.extractLsb 25 21).toFin (w.extractLsb 20 16).toFin (w.extractLsb 15 0))) ∧
    (w.extractLsb 31 26 = 31#6 → w.extractLsb 10 1 = 343#10 → w.extractLsb 0 0 = 0#1 →
      decode w =
        .ok (.lhax (w.extractLsb 25 21).toFin (w.extractLsb 20 16).toFin (w.extractLsb 15 11).toFin)) ∧
    (w.extractLsb 31 26 = 31#6 → w.extractLsb 10 1 = 375#10 → w.extractLsb 0 0 = 0#1 →
      decode w =
        .ok (.lhaux (w.extractLsb 25 21).toFin (w.extractLsb 20 16).toFin (w.extractLsb 15 11).toFin)) ∧
    (w.extractLsb 31 26 ≠ 42#6 → w.extractLsb 31 26 ≠ 43#6 →
      ¬(w.extractLsb 31 26 = 31#6 ∧ (w.extractLsb 10 1 = 343#10 ∨ w.extractLsb 10 1 = 375#10) ∧
        w.extractLsb 0 0 = 0#1) →
      ∃ r, decode w = .error r)

/-- R42 and R44 (the spec's own decisions D7 and D9, log entry 16): an `lhax` or `lhaux` pattern with `w[0] = 1` is refused with `rc_set`; a word that matches no row and is
no such pattern is refused with `not_in_spec`. -/
def Obligations.StepRefusesWordsOutsideTheSpec : Prop :=
  ∀ (s : State) (w : Word), s.pc ≠ s.textEnd → s.pc.toNat % 4 = 0 → s.mem.memRead s.pc 4 = some w →
    (w &&& 0xFC0007FF#32 = 0x7C0002AF#32 ∨ w &&& 0xFC0007FF#32 = 0x7C0002EF#32 → step s = .refused .rcSet) ∧
    (w &&& 0xFC000000#32 ≠ 0xA8000000#32 → w &&& 0xFC000000#32 ≠ 0xAC000000#32 →
      w &&& 0xFC0007FE#32 ≠ 0x7C0002EE#32 → w &&& 0xFC0007FE#32 ≠ 0x7C0002AE#32 → step s = .refused .notInSpec)

/-- Words written out from the encoding tables, each with the instruction it stands for (spec/95_test_vectors.md V1, V3, V4,
V7, V8, V9, V10, V12). -/
def Obligations.SampleWordsDecode : Prop :=
  decode 0xA864FFFE#32 = .ok (.lha 3 4 0xFFFE#16) ∧
  decode 0xA8A07FFF#32 = .ok (.lha 5 0 0x7FFF#16) ∧
  decode 0xACC78000#32 = .ok (.lhau 6 7 0x8000#16) ∧
  decode 0x7D0052AE#32 = .ok (.lhax 8 0 10) ∧
  decode 0x7D6C6AEE#32 = .ok (.lhaux 11 12 13) ∧
  decode 0xABFFFFFF#32 = .ok (.lha 31 31 0xFFFF#16) ∧
  decode 0x7D0952AF#32 = .error .rcSet ∧
  decode 0x7C0002AC#32 = .error .notInSpec

/-! ### One step (spec/60_exceptions.md, spec/70_reset_and_hazards.md) -/

/-- Where the four bytes at an aligned pc that is not the end of the run are, most significant first, a word that decodes
to `i`, the step is `exec` of `i` in that very state: nothing is added around it (R26, R64; that fetch reads so is the spec's
own decision D3, log entry 11). -/
def Obligations.StepRunsTheInstructionAtThePc : Prop :=
  ∀ (s : State) (b0 b1 b2 b3 : Byte) (i : Instr), s.pc ≠ s.textEnd → s.pc.toNat % 4 = 0 →
    s.mem.byte s.pc.toNat = some b0 → s.mem.byte (s.pc.toNat + 1) = some b1 →
    s.mem.byte (s.pc.toNat + 2) = some b2 → s.mem.byte (s.pc.toNat + 3) = some b3 →
    decode (b0 ++ b1 ++ b2 ++ b3) = .ok i → step s = exec i s

/-- R64: the checks are made in this order, and the first that fails decides the outcome. The order is the spec's own
choice, D25; the outcomes are those of log entries 5, 11, 12, 13 and 16. -/
def Obligations.ChecksAreMadeInOrder : Prop :=
  ∀ s : State, s.pc ≠ s.textEnd →
    (s.pc.toNat % 4 ≠ 0 → step s = .refused .pcMisaligned) ∧
    (s.pc.toNat % 4 = 0 →
      (s.mem.memRead s.pc 4 = none → step s = .fault (.storageFault s.pc)) ∧
      ∀ w : Word, s.mem.memRead s.pc 4 = some w →
        (∀ r, decode w = .error r → step s = .refused .rcSet ∨ step s = .refused .notInSpec) ∧
        ∀ i, decode w = .ok i →
          (refusedForm i s → step s = .refused .invalidForm) ∧
          (¬refusedForm i s →
            (s.mem.memRead (dataAddress i s) 2 = none → step s = .fault (.storageFault (dataAddress i s))) ∧
            ∀ h, s.mem.memRead (dataAddress i s) 2 = some h →
              (s.pc + 4#32 = 0#32 ∧ s.textEnd ≠ 0#32 → step s = .refused .pcWrap) ∧
              (¬(s.pc + 4#32 = 0#32 ∧ s.textEnd ≠ 0#32) →
                ∃ t, step s = .next t ∧ exec i s = .next t ∧ t.pc = s.pc + 4#32)))

/-- At the end of a run no fetch is made and the state is final (R72). That the model's step then answers the same state
is its own choice (log entry 4). -/
def Obligations.EndOfRunIsFinal : Prop :=
  ∀ s : State, s.pc = s.textEnd → step s = .next s

/-- R62 (the spec's own decision D10, log entries 5, 11, 12, 16): a step is refused for one of the five reasons of the
closed list, each with its situation. -/
def Obligations.RefusalsAreTheClosedList : Prop :=
  ∀ (s : State) (r : Refusal), step s = .refused r →
    (r = .pcMisaligned ∧ s.pc.toNat % 4 ≠ 0) ∨
    (r = .pcWrap ∧ s.pc = 0xFFFFFFFC#32 ∧ s.textEnd ≠ 0#32) ∨
    (∃ w : Word, s.mem.memRead s.pc 4 = some w ∧
      ((r = .rcSet ∧ (w &&& 0xFC0007FF#32 = 0x7C0002AF#32 ∨ w &&& 0xFC0007FF#32 = 0x7C0002EF#32)) ∨
       (r = .notInSpec ∧ w &&& 0xFC000000#32 ≠ 0xA8000000#32 ∧ w &&& 0xFC000000#32 ≠ 0xAC000000#32 ∧
         w &&& 0xFC0007FF#32 ≠ 0x7C0002EE#32 ∧ w &&& 0xFC0007FF#32 ≠ 0x7C0002AE#32) ∨
       (r = .invalidForm ∧ s.policy = .refuse ∧
         ∃ rt ra, (ra = 0 ∨ ra = rt) ∧
           ((∃ d, decode w = .ok (.lhau rt ra d)) ∨ ∃ rb, decode w = .ok (.lhaux rt ra rb)))))

/-- R61: a step faults exactly when its fetch, or the data read of an instruction that is not a refused form, is not
admitted; the fault is `StorageFault` of the first address of that access. The fault is the spec's own outcome (D5, D10,
log entry 13). -/
def Obligations.FaultsAreUnadmittedAccesses : Prop :=
  ∀ (s : State) (f : Fault), step s = .fault f ↔
    s.pc ≠ s.textEnd ∧ s.pc.toNat % 4 = 0 ∧
    ((s.mem.memRead s.pc 4 = none ∧ f = .storageFault s.pc) ∨
     ∃ (w : Word) (i : Instr), s.mem.memRead s.pc 4 = some w ∧ decode w = .ok i ∧ ¬refusedForm i s ∧
       s.mem.memRead (dataAddress i s) 2 = none ∧ f = .storageFault (dataAddress i s))

/-! ### The four instructions (spec/40_load_half_algebraic.md)

The faults these rules name, the 32-bit memory address and the widths of sign extension and write-back are the spec's own
decisions and resolutions (D2, D5, C1, C3; log entries 8, 9, 10, 13), as the rules word them. That the pc may advance is R14's
condition (log entry 12). -/

/-- R52, `lha`: its word; its next state, where the two bytes at `EA[31:0]` are mapped and the pc may advance, with
everything but `x[RT]` and the pc unchanged; its `StorageFault` where one of the two is not. -/
def Obligations.LhaFollowsItsRule : Prop :=
  ∀ (s : State) (rt ra : Reg) (d : Half),
    let ea : DWord := (if ra = 0 then 0#64 else s.x[ra]) + d.signExtend 64
    let a : Addr := ea.extractLsb 31 0
    encode (.lha rt ra d) =
      0xA8000000#32 ||| BitVec.ofNat 32 rt.val <<< 21 ||| BitVec.ofNat 32 ra.val <<< 16 ||| d.zeroExtend 32 ∧
    (∀ b0 b1 : Byte, s.mem.byte a.toNat = some b0 → s.mem.byte (a.toNat + 1) = some b1 →
      s.pc + 4#32 ≠ 0#32 ∨ s.textEnd = 0#32 →
      exec (.lha rt ra d) s = .next { s with x := s.x.set rt ((b0 ++ b1).signExtend 64), pc := s.pc + 4#32 }) ∧
    (s.mem.byte a.toNat = none ∨ s.mem.byte (a.toNat + 1) = none →
      exec (.lha rt ra d) s = .fault (.storageFault a))

/-- R53, `lhau`, valid forms: as `lha` with the register `RA` as base, and all 64 bits of EA written to `x[RA]`. -/
def Obligations.LhauFollowsItsRule : Prop :=
  ∀ (s : State) (rt ra : Reg) (d : Half),
    let ea : DWord := s.x[ra] + d.signExtend 64
    let a : Addr := ea.extractLsb 31 0
    encode (.lhau rt ra d) =
      0xAC000000#32 ||| BitVec.ofNat 32 rt.val <<< 21 ||| BitVec.ofNat 32 ra.val <<< 16 ||| d.zeroExtend 32 ∧
    (ra ≠ 0 → ra ≠ rt →
      (∀ b0 b1 : Byte, s.mem.byte a.toNat = some b0 → s.mem.byte (a.toNat + 1) = some b1 →
        s.pc + 4#32 ≠ 0#32 ∨ s.textEnd = 0#32 →
        exec (.lhau rt ra d) s =
          .next { s with x := (s.x.set rt ((b0 ++ b1).signExtend 64)).set ra ea, pc := s.pc + 4#32 }) ∧
      (s.mem.byte a.toNat = none ∨ s.mem.byte (a.toNat + 1) = none →
        exec (.lhau rt ra d) s = .fault (.storageFault a))) ∧
    (ra = 0 ∨ ra = rt → s.policy = .refuse → exec (.lhau rt ra d) s = .refused .invalidForm)

/-- R54, `lhaux`, valid forms: EA is `x[RA] + x[RB]`, and all 64 bits of it are written to `x[RA]`. -/
def Obligations.LhauxFollowsItsRule : Prop :=
  ∀ (s : State) (rt ra rb : Reg),
    let ea : DWord := s.x[ra] + s.x[rb]
    let a : Addr := ea.extractLsb 31 0
    encode (.lhaux rt ra rb) =
      0x7C0002EE#32 ||| BitVec.ofNat 32 rt.val <<< 21 ||| BitVec.ofNat 32 ra.val <<< 16 |||
        BitVec.ofNat 32 rb.val <<< 11 ∧
    (ra ≠ 0 → ra ≠ rt →
      (∀ b0 b1 : Byte, s.mem.byte a.toNat = some b0 → s.mem.byte (a.toNat + 1) = some b1 →
        s.pc + 4#32 ≠ 0#32 ∨ s.textEnd = 0#32 →
        exec (.lhaux rt ra rb) s =
          .next { s with x := (s.x.set rt ((b0 ++ b1).signExtend 64)).set ra ea, pc := s.pc + 4#32 }) ∧
      (s.mem.byte a.toNat = none ∨ s.mem.byte (a.toNat + 1) = none →
        exec (.lhaux rt ra rb) s = .fault (.storageFault a))) ∧
    (ra = 0 ∨ ra = rt → s.policy = .refuse → exec (.lhaux rt ra rb) s = .refused .invalidForm)

/-- R55, `lhax`: EA is `(RA|0) + x[RB]`; only `x[RT]` and the pc change. -/
def Obligations.LhaxFollowsItsRule : Prop :=
  ∀ (s : State) (rt ra rb : Reg),
    let ea : DWord := (if ra = 0 then 0#64 else s.x[ra]) + s.x[rb]
    let a : Addr := ea.extractLsb 31 0
    encode (.lhax rt ra rb) =
      0x7C0002AE#32 ||| BitVec.ofNat 32 rt.val <<< 21 ||| BitVec.ofNat 32 ra.val <<< 16 |||
        BitVec.ofNat 32 rb.val <<< 11 ∧
    (∀ b0 b1 : Byte, s.mem.byte a.toNat = some b0 → s.mem.byte (a.toNat + 1) = some b1 →
      s.pc + 4#32 ≠ 0#32 ∨ s.textEnd = 0#32 →
      exec (.lhax rt ra rb) s = .next { s with x := s.x.set rt ((b0 ++ b1).signExtend 64), pc := s.pc + 4#32 }) ∧
    (s.mem.byte a.toNat = none ∨ s.mem.byte (a.toNat + 1) = none →
      exec (.lhax rt ra rb) s = .fault (.storageFault a))

/-- R43 (the policy is the spec's own parameter D8, log entry 5): `RA = 0` and `RA = RT` make `lhau` and `lhaux` invalid forms, refused under the policy `refuse` (the default) and
under it alone; a valid form and the two other instructions are never refused so. -/
def Obligations.InvalidFormsAreThoseOfTheUpdateLoads : Prop :=
  ∀ (s : State) (rt ra rb : Reg) (d : Half),
    (exec (.lhau rt ra d) s = .refused .invalidForm ↔ (ra = 0 ∨ ra = rt) ∧ s.policy = .refuse) ∧
    (exec (.lhaux rt ra rb) s = .refused .invalidForm ↔ (ra = 0 ∨ ra = rt) ∧ s.policy = .refuse) ∧
    exec (.lha rt ra d) s ≠ .refused .invalidForm ∧ exec (.lhax rt ra rb) s ≠ .refused .invalidForm ∧
    State.reset.policy = .refuse

/-- R56 (the emulator's behaviour, the spec's own decision D8, log entry 5): under the policy `snapshot` an invalid form runs as a valid one. With `RA = 0` the base is the register `x[0]`,
which takes EA; with `RA = RT` the register ends holding EA and the loaded value is lost; an unmapped byte still faults. -/
def Obligations.SnapshotPolicyRunsInvalidForms : Prop :=
  ∀ (s : State) (rt rb : Reg) (d : Half), s.policy = .snapshot → s.pc + 4#32 ≠ 0#32 ∨ s.textEnd = 0#32 →
    (∀ (ea : DWord) (b0 b1 : Byte), s.mem.byte (ea.extractLsb 31 0).toNat = some b0 →
      s.mem.byte ((ea.extractLsb 31 0).toNat + 1) = some b1 →
      (rt ≠ 0 → ea = s.x[0] + d.signExtend 64 →
        exec (.lhau rt 0 d) s =
          .next { s with x := (s.x.set rt ((b0 ++ b1).signExtend 64)).set 0 ea, pc := s.pc + 4#32 }) ∧
      (rt ≠ 0 → ea = s.x[0] + s.x[rb] →
        exec (.lhaux rt 0 rb) s =
          .next { s with x := (s.x.set rt ((b0 ++ b1).signExtend 64)).set 0 ea, pc := s.pc + 4#32 }) ∧
      (ea = s.x[rt] + d.signExtend 64 →
        exec (.lhau rt rt d) s = .next { s with x := s.x.set rt ea, pc := s.pc + 4#32 }) ∧
      (ea = s.x[rt] + s.x[rb] →
        exec (.lhaux rt rt rb) s = .next { s with x := s.x.set rt ea, pc := s.pc + 4#32 })) ∧
    (∀ ra : Reg, ra = 0 ∨ ra = rt →
      (s.mem.memRead ((s.x[ra] + d.signExtend 64).extractLsb 31 0) 2 = none →
        exec (.lhau rt ra d) s = .fault (.storageFault ((s.x[ra] + d.signExtend 64).extractLsb 31 0))) ∧
      (s.mem.memRead ((s.x[ra] + s.x[rb]).extractLsb 31 0) 2 = none →
        exec (.lhaux rt ra rb) s = .fault (.storageFault ((s.x[ra] + s.x[rb]).extractLsb 31 0))))

/-- Every instruction answers a next state exactly when its form is not refused, its two bytes are mapped and the pc may
advance; these are conditions on the state and the operands alone (R43, R22, R14, R64, the spec's own decisions; log entries
5, 12, 13). -/
def Obligations.InstructionsCompleteExactlyWhen : Prop :=
  ∀ (i : Instr) (s : State),
    (∃ t, exec i s = .next t) ↔
      ¬refusedForm i s ∧ s.mem.mapped (dataAddress i s).toNat = true ∧
        s.mem.mapped ((dataAddress i s).toNat + 1) = true ∧ (s.pc + 4#32 ≠ 0#32 ∨ s.textEnd = 0#32)

/-- The frame of all four (R12, R18): a completed instruction leaves every register it is not said to write, CR, XER, the
floating-point and vector registers, the launch parameters, and EVERY byte of memory as they were (none stores). -/
def Obligations.InstructionFrame : Prop :=
  ∀ (i : Instr) (s t : State), exec i s = .next t →
    (match i with
      | .lha rt _ _ => ∀ r : Reg, r ≠ rt → t.x[r] = s.x[r]
      | .lhau rt ra _ => ∀ r : Reg, r ≠ rt → r ≠ ra → t.x[r] = s.x[r]
      | .lhaux rt ra _ => ∀ r : Reg, r ≠ rt → r ≠ ra → t.x[r] = s.x[r]
      | .lhax rt _ _ => ∀ r : Reg, r ≠ rt → t.x[r] = s.x[r]) ∧
    t.flags = s.flags ∧ t.fprs = s.fprs ∧ t.vrs = s.vrs ∧ t.textEnd = s.textEnd ∧ t.policy = s.policy ∧
    ∀ a, t.mem.byte a = s.mem.byte a

/-- R13: a completed instruction advances the pc by 4, and none reads the pc as an operand. -/
def Obligations.CompletedInstructionsOnlyAdvanceThePc : Prop :=
  ∀ (i : Instr) (s t : State), exec i s = .next t →
    t.pc = s.pc + 4#32 ∧
    ∀ (p : Addr) (t' : State), exec i { s with pc := p } = .next t' → t'.x = t.x ∧ t'.pc = p + 4#32

/-- The registers an instruction is said to read (R12) are all it reads: with the others changed at will it has the same
outcome and writes the same values. With `RA0` and field 0 no base register is read, `r0` neither (R11). -/
def Obligations.InstructionsReadOnlyTheirOperands : Prop :=
  ∀ (i : Instr) (s : State) (y : Vector DWord 32), (∀ r ∈ i.reads, y[r] = s.x[r]) →
    (∀ f, exec i s = .fault f ↔ exec i { s with x := y } = .fault f) ∧
    (∀ r, exec i s = .refused r ↔ exec i { s with x := y } = .refused r) ∧
    (∀ t, exec i s = .next t → ∃ t', exec i { s with x := y } = .next t' ∧ ∀ r ∈ i.writes, t'.x[r] = t.x[r])

/-- Of memory an instruction depends on the two bytes at `EA[31:0]` and nothing else (from R27): memory may differ anywhere
else and the instruction does the same, memory left as it is. That the two bytes are needed is what
`InstructionsCompleteExactlyWhen` says. -/
def Obligations.InstructionsReadOnlyTwoBytes : Prop :=
  ∀ (i : Instr) (s : State) (m : Memory),
    m.byte (dataAddress i s).toNat = s.mem.byte (dataAddress i s).toNat →
    m.byte ((dataAddress i s).toNat + 1) = s.mem.byte ((dataAddress i s).toNat + 1) →
    (∀ f, exec i s = .fault f ↔ exec i { s with mem := m } = .fault f) ∧
    (∀ r, exec i s = .refused r ↔ exec i { s with mem := m } = .refused r) ∧
    (∀ t, exec i s = .next t → exec i { s with mem := m } = .next { t with mem := m })

/-- R51: after a load in a valid form the low 16 bits of `x[RT]` are the halfword read at `EA[31:0]` and bits 63 to 16
are 48 copies of its bit 15. -/
def Obligations.DestinationHoldsTheSignExtendedHalfword : Prop :=
  ∀ (i : Instr) (s t : State), i.wellFormed = true → exec i s = .next t →
    ∃ h : Half, s.mem.memRead (dataAddress i s) 2 = some h ∧
      t.x[i.dest].extractLsb 15 0 = h ∧ ∀ j, 16 ≤ j → j < 64 → t.x[i.dest].getLsbD j = h.getLsbD 15

/-- R50: the update forms, invalid ones under `snapshot` among them, write the whole 64-bit EA to `x[RA]`. -/
def Obligations.UpdateFormsWriteBackTheWholeSum : Prop :=
  ∀ (s t : State) (rt ra rb : Reg) (d : Half),
    (exec (.lhau rt ra d) s = .next t → t.x[ra] = s.x[ra] + d.signExtend 64) ∧
    (exec (.lhaux rt ra rb) s = .next t → t.x[ra] = s.x[ra] + s.x[rb])

/-- Where the source's two readings differ (spec/90_conflicts.md C1, C3) they agree on the low halves: the low 32 bits of
`x[RT]` are the halfword sign-extended to 32, all of `x[RT]` is what the emulator's code gives when `h[15] = 0`, and the
low 32 bits of `x[RA]` after an update are the memory address (R50, R51). -/
def Obligations.LowHalvesAgreeWithTheSnapshot : Prop :=
  ∀ (i : Instr) (s t : State) (h : Half), exec i s = .next t → s.mem.memRead (dataAddress i s) 2 = some h →
    (i.wellFormed = true → t.x[i.dest].extractLsb 31 0 = h.signExtend 32 ∧
      (h.getLsbD 15 = false → t.x[i.dest] = (h.signExtend 32).zeroExtend 64)) ∧
    (match i with
      | .lhau _ ra _ => t.x[ra].extractLsb 31 0 = dataAddress i s
      | .lhaux _ ra _ => t.x[ra].extractLsb 31 0 = dataAddress i s
      | .lha _ _ _ => True
      | .lhax _ _ _ => True)

/-- R11: no general register is hardwired, `r0` among them; what reads as zero is the operand `RA0` with field 0. -/
def Obligations.NoRegisterIsHardwired : Prop :=
  ∀ (s : State) (r q : Reg) (v : DWord),
    (s.writeX r v).readX r = v ∧ (q ≠ r → (s.writeX r v).readX q = s.readX q) ∧
    operandRA0 s 0 = 0#64 ∧ (r ≠ 0 → operandRA0 s r = s.x[r]) ∧ operandRA s r = s.x[r] ∧ operandRB s r = s.x[r]

/-! ### Memory (spec/20_memory.md) -/

/-- R22 (the spec's own decision D5 and D6, log entries 6 and 13): a read of `n ≥ 1` bytes is admitted when it does not run
past the top of the address space and every byte of it is mapped. -/
def Obligations.ReadsAreAdmittedByMapping : Prop :=
  ∀ (m : Memory) (addr : Addr) (n : Nat), 1 ≤ n →
    ((∃ v, m.memRead addr n = some v) ↔
      addr.toNat + n - 1 ≤ 2 ^ 32 - 1 ∧ ∀ k, k < n → m.mapped (addr.toNat + k) = true)

/-- The byte at the lowest address is the most significant of the value read; `MemWrite` stores the bytes in that order and
no others (from R23). That storing to an unmapped address maps it is the model's choice, log entry 19: R23 gives `MemWrite` no
admission rule. -/
def Obligations.MemoryIsBigEndian : Prop :=
  (∀ (m : Memory) (addr : Addr) (n : Nat) (v : BitVec (8 * n)), m.memRead addr n = some v →
    ∀ k, k < n → m.byte (addr.toNat + k) = some (v.extractLsb' (8 * (n - 1 - k)) 8)) ∧
  (∀ (m : Memory) (addr : Addr) (n : Nat) (v : BitVec (8 * n)), addr.toNat + n ≤ 2 ^ 32 →
    (∀ k, k < n → (m.memWrite addr n v).byte (addr.toNat + k) = some (v.extractLsb' (8 * (n - 1 - k)) 8)) ∧
    ∀ a, a < addr.toNat ∨ addr.toNat + n ≤ a → (m.memWrite addr n v).byte a = m.byte a)

/-- A halfword read needs no alignment (from R25). Whatever the parity of the address `MemRead` is admitted when the two
bytes are mapped and answers `M[addr] ++ M[addr+1]`, and an instruction faults for no other reason than an unmapped byte. That
it then faults, and with `StorageFault` of the data address, is R22's and R61's, the spec's own decisions D5 and D10 (log entry
13). -/
def Obligations.HalfwordLoadsNeedNoAlignment : Prop :=
  (∀ (m : Memory) (addr : Addr) (b0 b1 : Byte), m.byte addr.toNat = some b0 → m.byte (addr.toNat + 1) = some b1 →
    m.memRead addr 2 = some (b0 ++ b1)) ∧
  ∀ (i : Instr) (s : State) (f : Fault), exec i s = .fault f →
    f = .storageFault (dataAddress i s) ∧
      (s.mem.mapped (dataAddress i s).toNat = false ∨ s.mem.mapped ((dataAddress i s).toNat + 1) = false)

/-! ### Runs and invariants (spec/70_reset_and_hazards.md) -/

/-- Every step keeps the canonical form of memory and of the opaque banks, and the pc a multiple of 4 (R14, R18). -/
def Obligations.StepKeepsTheInvariant : Prop :=
  ∀ s t : State, s.Inv → step s = .next t → t.Inv

/-- The invariant holds right after reset. The values of that state are the model's choice (log entries 2, 6, 7). -/
def Obligations.InvariantHoldsAtReset : Prop := State.reset.Inv

/-- Memory, CR, XER, the floating-point and vector registers and the launch parameters are constant over a run
(R15, R17, R18, R32). -/
def Obligations.RunsChangeOnlyRegistersAndPc : Prop :=
  ∀ (k : Nat) (s t : State), Reaches k s t →
    (∀ a, t.mem.byte a = s.mem.byte a) ∧ t.flags = s.flags ∧ t.fprs = s.fprs ∧ t.vrs = s.vrs ∧
      t.textEnd = s.textEnd ∧ t.policy = s.policy

/-- R72, R13: a run that neither faults nor is refused advances the pc by 4 a step until it is `text_end`, so it executes
exactly `(text_end - entry) / 4` instructions; with `text_end = 0` the run goes up to the top of the address space and ends
at the wrap to 0 (R14). The end of a run is the spec's own decision D14; that the state then stays as it is, is the model's
choice, log entry 4. -/
def Obligations.RunsAreStraightLines : Prop :=
  ∀ (k : Nat) (s t : State), s.pc.toNat % 4 = 0 → s.textEnd.toNat % 4 = 0 → Reaches k s t →
    (s.pc.toNat ≤ s.textEnd.toNat →
      t.pc.toNat = min (s.pc.toNat + 4 * k) s.textEnd.toNat ∧
      (t.pc = t.textEnd ↔ (s.textEnd.toNat - s.pc.toNat) / 4 ≤ k)) ∧
    (s.textEnd = 0#32 → s.pc ≠ 0#32 →
      t.pc.toNat = if s.pc.toNat + 4 * k < 2 ^ 32 then s.pc.toNat + 4 * k else 0)

/-- R72 (the spec's own decision D14, log entry 4): a launch with `text_end < entry` and `text_end ≠ 0` never ends
successfully: it can only end by a fault or a refusal. -/
def Obligations.RunsPastTheirEndNeverEnd : Prop :=
  ∀ s t : State, s.textEnd.toNat < s.pc.toNat → s.textEnd ≠ 0#32 → ¬EndsSuccessfully s t

/-- A pc past a `text_end` that is not 0 stays past it at every step, and `text_end` stays as it is: the pc advances by 4
and never wraps to 0 (R13; R14 and R72, the spec's own decisions D4 and D14, log entries 4 and 12). -/
def Obligations.StepKeepsThePcPastTheEnd : Prop :=
  ∀ s t : State, s.textEnd.toNat < s.pc.toNat ∧ s.textEnd ≠ 0#32 → step s = .next t →
    (t.textEnd.toNat < t.pc.toNat ∧ t.textEnd ≠ 0#32) ∧ t.textEnd = s.textEnd

/-- R71 (the spec's own decision D13, log entry 3; which bytes are the program's is read in unsigned order, the model's choice,
log entry 22): a launch whose program is stored and mapped stays so at every step, so no fetch of the run ever faults. -/
def Obligations.LaunchedProgramsAreAlwaysFetched : Prop :=
  ∀ (k : Nat) (s t : State), s.ProgramReady → Reaches k s t →
    t.ProgramReady ∧ (t.pc ≠ t.textEnd → ∃ w, t.mem.memRead t.pc 4 = some w)

/-- R21, R50: the high halves of the registers take no part in addressing or in the low halves of results. Two states that
differ only in bits 63 to 32 of their registers run alike, and their registers always agree in bits 31 to 0. -/
def Obligations.LowHalvesDetermineTheRun : Prop :=
  ∀ (k : Nat) (s t : State) (y : Vector DWord 32),
    (∀ r : Reg, y[r].extractLsb 31 0 = s.x[r].extractLsb 31 0) → Reaches k s t →
    ∃ z : Vector DWord 32, Reaches k { s with x := y } { t with x := z } ∧
      ∀ r : Reg, z[r].extractLsb 31 0 = t.x[r].extractLsb 31 0

/-- A word placed by the launch where fetch reads it is the instruction the next step runs; no register and no byte outside
the word is changed by placing it. How a word is placed is THE MODEL'S CHOICE and no rule of the spec: `withFetchWord` stands
for the load of R71 (log entry 3), and storing the word maps its bytes (log entry 19). That fetch reads the four bytes at the pc
most significant first is the spec's own decision D3 (R26, log entry 11). -/
def Obligations.PlacedWordIsRunNext : Prop :=
  ∀ (s : State) (w : Word) (i : Instr), decode w = .ok i →
    let s' := s.withFetchWord 32 w.toNat
    step s' = exec i s' ∧ s'.x = s.x ∧ (s.pc.toNat % 4 = 0 → s'.pc = s.pc) ∧
      ∀ a, a < s'.pc.toNat ∨ s'.pc.toNat + 4 ≤ a → s'.mem.byte a = s.mem.byte a
end

