-- ==== Sys2Proof/Laws/Decode.lean ====
section
/-! SUPPORT. The words of forms D and X as numbers, and what a field reads of a word's number. Decoding and encoding
are then questions of arithmetic. -/

namespace Sys2Proof

theorem append_toNat {n k : Nat} (a : BitVec n) (b : BitVec k) : (a ++ b).toNat = a.toNat * 2 ^ k + b.toNat := by
  rw [BitVec.toNat_append, ← Nat.shiftLeft_add_eq_or_of_lt b.isLt, Nat.shiftLeft_eq]

/-- A form D word as a number (R36): the fields tile it. -/
theorem encodeD_toNat (opcd : BitVec 6) (rt ra : Reg) (d : Half) :
    (encodeD opcd rt ra d).toNat = opcd.toNat * 2 ^ 26 + rt.val * 2 ^ 21 + ra.val * 2 ^ 16 + d.toNat := by
  have e : (encodeD opcd rt ra d).toNat =
      ((opcd.toNat * 2 ^ 5 + rt.val) * 2 ^ 5 + ra.val) * 2 ^ 16 + d.toNat := by
    unfold encodeD
    rw [append_toNat, append_toNat, append_toNat]
    rfl
  rw [e]; omega

/-- A form X word as a number (R37): the fields tile it. -/
theorem encodeX_toNat (xo : BitVec 10) (rt ra rb : Reg) :
    (encodeX xo rt ra rb).toNat = 31 * 2 ^ 26 + rt.val * 2 ^ 21 + ra.val * 2 ^ 16 + rb.val * 2 ^ 11 + xo.toNat * 2 := by
  have e : (encodeX xo rt ra rb).toNat =
      ((((31 * 2 ^ 5 + rt.val) * 2 ^ 5 + ra.val) * 2 ^ 5 + rb.val) * 2 ^ 10 + xo.toNat) * 2 + 0 := by
    unfold encodeX
    rw [append_toNat, append_toNat, append_toNat, append_toNat, append_toNat]
    rfl
  rw [e]; omega

theorem slice_toNat (w : Word) (lo len : Nat) : (w.extractLsb' lo len).toNat = w.toNat / 2 ^ lo % 2 ^ len := by
  rw [BitVec.extractLsb'_toNat, Nat.shiftRight_eq_div_pow]

theorem fieldOPCD_toNat (w : Word) : (fieldOPCD w).toNat = w.toNat / 2 ^ 26 % 2 ^ 6 := slice_toNat w 26 6

theorem fieldRT_val (w : Word) : (fieldRT w).val = w.toNat / 2 ^ 21 % 2 ^ 5 := slice_toNat w 21 5

theorem fieldRA_val (w : Word) : (fieldRA w).val = w.toNat / 2 ^ 16 % 2 ^ 5 := slice_toNat w 16 5

theorem fieldRB_val (w : Word) : (fieldRB w).val = w.toNat / 2 ^ 11 % 2 ^ 5 := slice_toNat w 11 5

theorem fieldD_toNat (w : Word) : (fieldD w).toNat = w.toNat % 2 ^ 16 := by
  rw [fieldD, slice_toNat, Nat.pow_zero, Nat.div_one]

theorem fieldXO_toNat (w : Word) : (fieldXO w).toNat = w.toNat / 2 % 2 ^ 10 := slice_toNat w 1 10

theorem fieldRc_toNat (w : Word) : (fieldRc w).toNat = w.toNat % 2 := by
  rw [fieldRc, slice_toNat, Nat.pow_zero, Nat.div_one, Nat.pow_one]

theorem fieldOPCD_encodeD (opcd : BitVec 6) (rt ra : Reg) (d : Half) : fieldOPCD (encodeD opcd rt ra d) = opcd := by
  apply BitVec.eq_of_toNat_eq
  rw [fieldOPCD_toNat, encodeD_toNat]
  omega

theorem fieldOPCD_encodeX (xo : BitVec 10) (rt ra rb : Reg) : fieldOPCD (encodeX xo rt ra rb) = 31#6 := by
  apply BitVec.eq_of_toNat_eq
  rw [fieldOPCD_toNat, encodeX_toNat]
  show _ = 31
  omega

/-- The mask of the form D rows keeps `w[31:26]` (R40). -/
theorem maskD_toNat (w : Word) : (w &&& 0xFC000000#32).toNat = w.toNat / 2 ^ 26 * 2 ^ 26 := by
  have e : w &&& 0xFC000000#32 = (w >>> 26) <<< 26 := by
    apply BitVec.eq_of_getLsbD_eq
    intro j hj
    interval_cases j <;> simp
  rw [e, BitVec.toNat_shiftLeft, BitVec.toNat_ushiftRight, Nat.shiftRight_eq_div_pow, Nat.shiftLeft_eq]
  have := w.isLt
  omega

/-- The mask of the form X rows keeps `w[31:26]` and `w[10:0]` (R40). -/
theorem maskX_toNat (w : Word) : (w &&& 0xFC0007FF#32).toNat = w.toNat / 2 ^ 26 * 2 ^ 26 + w.toNat % 2 ^ 11 := by
  have e : w &&& 0xFC0007FF#32 = (w &&& 0xFC000000#32) + (w &&& 0x7FF#32) := by
    rw [BitVec.add_eq_or_of_and_eq_zero]
    · rw [← BitVec.and_or_distrib_left]; rfl
    · apply BitVec.eq_of_getLsbD_eq
      intro j hj
      interval_cases j <;> simp
  have h : (w &&& 0x7FF#32).toNat = w.toNat % 2 ^ 11 := by
    rw [BitVec.toNat_and]; exact Nat.and_two_pow_sub_one_eq_mod _ 11
  rw [e, BitVec.toNat_add, maskD_toNat, h]
  have := w.isLt
  omega

/-- The mask of the form X rows without `Rc` keeps `w[31:26]` and `w[10:1]` (R42). -/
theorem maskXO_toNat (w : Word) :
    (w &&& 0xFC0007FE#32).toNat = w.toNat / 2 ^ 26 * 2 ^ 26 + w.toNat / 2 % 2 ^ 10 * 2 := by
  have e : w &&& 0xFC0007FE#32 = ((w &&& 0xFC0007FF#32) >>> 1) <<< 1 := by
    apply BitVec.eq_of_getLsbD_eq
    intro j hj
    interval_cases j <;> simp
  rw [e, BitVec.toNat_shiftLeft, BitVec.toNat_ushiftRight, maskX_toNat, Nat.shiftRight_eq_div_pow, Nat.shiftLeft_eq]
  have := w.isLt
  omega

end Sys2Proof
end

