-- ==== Sys2Proof/Laws/Memory.lean ====
section
/-! SUPPORT. The laws of memory: every memory operation keeps the canonical form; a byte stored is the byte read there
and no other byte changes; what a read of two or of four bytes answers. -/

namespace Sys2Proof.Machine

/-! ### The canonical form is kept -/

theorem mem_insert {m : Memory} {a : Nat} {b : Byte} {c : Host.Cell} (h : c ∈ m.insert a b) :
    c = (a, b) ∨ c ∈ m := by
  induction m with
  | nil => simpa [Memory.insert] using h
  | cons p m ih =>
    obtain ⟨k, d⟩ := p
    simp only [Memory.insert] at h
    split at h
    · simpa using h
    · split at h
      · rcases List.mem_cons.1 h with h | h
        · exact .inl h
        · exact .inr (List.mem_cons_of_mem _ h)
      · rcases List.mem_cons.1 h with h | h
        · exact .inr (h ▸ List.mem_cons_self)
        · exact (ih h).imp_right (List.mem_cons_of_mem _)

theorem insert_rising {m : Memory} {a : Nat} {b : Byte} (h : m.Pairwise fun p q => p.1 < q.1) :
    (m.insert a b).Pairwise fun p q => p.1 < q.1 := by
  induction m with
  | nil => simp [Memory.insert]
  | cons p m ih =>
    obtain ⟨k, d⟩ := p
    obtain ⟨hk, hm⟩ := List.pairwise_cons.1 h
    simp only [Memory.insert]
    split
    · rename_i hlt
      refine List.pairwise_cons.2 ⟨fun c hc => ?_, h⟩
      rcases List.mem_cons.1 hc with hc | hc
      · rw [hc]; exact hlt
      · exact Nat.lt_trans hlt (hk c hc)
    · split
      · rename_i heq
        subst heq
        exact List.pairwise_cons.2 ⟨hk, hm⟩
      · rename_i hlt hne
        refine List.pairwise_cons.2 ⟨fun c hc => ?_, ih hm⟩
        rcases mem_insert hc with hc | hc
        · subst hc; show k < a; omega
        · exact hk c hc

theorem putByte_wf {m : Memory} (a : Nat) (b : Byte) (h : m.wf) : (m.putByte a b).wf := by
  unfold Memory.putByte
  split
  · rename_i ha
    refine ⟨insert_rising h.1, fun c hc => ?_⟩
    rcases mem_insert hc with hc | hc
    · rw [hc]; exact ha
    · exact h.2 c hc
  · exact h

theorem putBytes_wf {m : Memory} (a : Nat) (bs : List Byte) (h : m.wf) : (m.putBytes a bs).wf := by
  induction bs generalizing m a with
  | nil => exact h
  | cons b bs ih => exact ih (a + 1) (putByte_wf a b h)

/-- `MemWrite` keeps the canonical form. -/
theorem memWrite_wf {m : Memory} (addr : Addr) (n : Nat) (v : BitVec (8 * n)) (h : m.wf) : (m.memWrite addr n v).wf :=
  putBytes_wf _ _ h

/-! ### A byte read after a byte stored -/

theorem lookup_insert (m : Memory) (a c : Nat) (b : Byte) :
    (m.insert a b).lookup c = if c = a then some b else m.lookup c := by
  induction m with
  | nil => simp [Memory.insert, Memory.lookup]
  | cons p m ih =>
    obtain ⟨k, d⟩ := p
    simp only [Memory.insert]
    split
    · simp [Memory.lookup]
    · split
      · rename_i heq
        subst heq
        simp only [Memory.lookup]
        split <;> simp_all
      · rename_i hne
        simp only [Memory.lookup, ih]
        by_cases hk : c = k
        · have : c ≠ a := by omega
          simp [hk]; omega
        · simp [hk]

@[simp] theorem byte_putByte_same (m : Memory) {a : Nat} (b : Byte) (h : a < 2 ^ Config.addrBits) :
    (m.putByte a b).byte a = some b := by
  simp only [Memory.byte, Memory.putByte, if_pos h, lookup_insert]
  simp

theorem byte_putByte_ne (m : Memory) {a c : Nat} (b : Byte) (h : c ≠ a) : (m.putByte a b).byte c = m.byte c := by
  simp only [Memory.byte, Memory.putByte]
  split
  · split
    · simp [lookup_insert, h]
    · rfl
  · rfl

theorem byte_outside (m : Memory) {a : Nat} (h : 2 ^ Config.addrBits ≤ a) : m.byte a = none := by
  simp [Memory.byte, Nat.not_lt.2 h]

/-! ### What a read answers -/

/-- A read of two bytes: both bytes mapped, and then the byte at the lower address is the more significant. -/
theorem memRead_two (m : Memory) (addr : Addr) :
    m.memRead addr 2 =
      match m.byte addr.toNat, m.byte (addr.toNat + 1) with
      | some b0, some b1 => some (b0 ++ b1)
      | _, _ => none := by
  simp only [Memory.memRead, Memory.bytes]
  cases m.byte addr.toNat with
  | none => rfl
  | some b0 =>
    cases m.byte (addr.toNat + 1) with
    | none => rfl
    | some b1 =>
      simp only [Option.map_some, bigEndian, Option.some.injEq]
      apply BitVec.eq_of_toNat_eq
      have h0 := b0.isLt
      have h1 := b1.isLt
      simp only [BitVec.toNat_ofNat, BitVec.toNat_append, List.length_cons, List.length_nil]
      rw [← Nat.shiftLeft_add_eq_or_of_lt h1, Nat.shiftLeft_eq]
      omega

/-- A read of four bytes, where all are mapped. -/
theorem memRead_four (m : Memory) (addr : Addr) {b0 b1 b2 b3 : Byte} (h0 : m.byte addr.toNat = some b0)
    (h1 : m.byte (addr.toNat + 1) = some b1) (h2 : m.byte (addr.toNat + 2) = some b2)
    (h3 : m.byte (addr.toNat + 3) = some b3) : m.memRead addr 4 = some (b0 ++ b1 ++ b2 ++ b3) := by
  simp only [Memory.memRead, Memory.bytes, h0, h1, h2, h3, Option.map_some, bigEndian, Option.some.injEq]
  apply BitVec.eq_of_toNat_eq
  have l0 := b0.isLt
  have l1 := b1.isLt
  have l2 := b2.isLt
  have l3 := b3.isLt
  simp only [BitVec.toNat_ofNat, BitVec.toNat_append, List.length_cons, List.length_nil]
  rw [← Nat.shiftLeft_add_eq_or_of_lt l3, ← Nat.shiftLeft_add_eq_or_of_lt l2, ← Nat.shiftLeft_add_eq_or_of_lt l1]
  simp only [Nat.shiftLeft_eq]
  omega

end Sys2Proof.Machine
end

