-- ==== Sys2Proof/Laws/State.lean ====
section
/-! SUPPORT. One lemma per field per update of State, true by rfl, so that no proof unfolds a record update; and the
register file's read-after-write laws. -/

namespace Sys2Proof.Machine

section WriteX
variable (s : State) (r : Reg) (v : DWord)

@[simp] theorem writeX_x : (s.writeX r v).x = s.x.set r v := rfl
@[simp] theorem writeX_pc : (s.writeX r v).pc = s.pc := rfl
@[simp] theorem writeX_mem : (s.writeX r v).mem = s.mem := rfl
@[simp] theorem writeX_cr : (s.writeX r v).cr = s.cr := rfl
@[simp] theorem writeX_xer : (s.writeX r v).xer = s.xer := rfl
@[simp] theorem writeX_fprs : (s.writeX r v).fprs = s.fprs := rfl
@[simp] theorem writeX_vrs : (s.writeX r v).vrs = s.vrs := rfl
@[simp] theorem writeX_textEnd : (s.writeX r v).textEnd = s.textEnd := rfl
@[simp] theorem writeX_policy : (s.writeX r v).policy = s.policy := rfl

end WriteX

section AdvancePc
variable (s : State)

@[simp] theorem advancePc_x : s.advancePc.x = s.x := rfl
@[simp] theorem advancePc_pc : s.advancePc.pc = s.pc + 4#32 := rfl
@[simp] theorem advancePc_mem : s.advancePc.mem = s.mem := rfl
@[simp] theorem advancePc_cr : s.advancePc.cr = s.cr := rfl
@[simp] theorem advancePc_xer : s.advancePc.xer = s.xer := rfl
@[simp] theorem advancePc_fprs : s.advancePc.fprs = s.fprs := rfl
@[simp] theorem advancePc_vrs : s.advancePc.vrs = s.vrs := rfl
@[simp] theorem advancePc_textEnd : s.advancePc.textEnd = s.textEnd := rfl
@[simp] theorem advancePc_policy : s.advancePc.policy = s.policy := rfl

end AdvancePc

section PlaceWord
variable (s : State) (w : Word)

@[simp] theorem placeWord_x : (s.placeWord w).x = s.x := rfl
@[simp] theorem placeWord_pc : (s.placeWord w).pc = s.pc &&& 0xFFFFFFFC#32 := rfl
@[simp] theorem placeWord_mem : (s.placeWord w).mem = s.mem.memWrite (s.pc &&& 0xFFFFFFFC#32) 4 w := rfl
@[simp] theorem placeWord_cr : (s.placeWord w).cr = s.cr := rfl
@[simp] theorem placeWord_xer : (s.placeWord w).xer = s.xer := rfl
@[simp] theorem placeWord_fprs : (s.placeWord w).fprs = s.fprs := rfl
@[simp] theorem placeWord_vrs : (s.placeWord w).vrs = s.vrs := rfl
@[simp] theorem placeWord_textEnd : (s.placeWord w).textEnd =
    if s.textEnd = s.pc &&& 0xFFFFFFFC#32 then (s.pc &&& 0xFFFFFFFC#32) + 4#32 else s.textEnd := rfl
@[simp] theorem placeWord_policy : (s.placeWord w).policy = s.policy := rfl

end PlaceWord

theorem readX_eq (s : State) (r : Reg) : s.readX r = s.x[r] := rfl

@[simp] theorem readX_writeX_same (s : State) (r : Reg) (v : DWord) : (s.writeX r v).readX r = v := by
  simp [readX_eq]

theorem readX_writeX_ne (s : State) {r q : Reg} (v : DWord) (h : q ≠ r) : (s.writeX r v).readX q = s.readX q := by
  have : (r : Nat) ≠ q := fun e => h (Fin.ext e.symm)
  simp [readX_eq, Vector.getElem_set_ne, this]

end Sys2Proof.Machine
end

