-- ==== Sys2Proof/Laws/Ops.lean ====
section
/-! SUPPORT. One lemma per shared operation and outcome, saying everything the operation can do; proofs cite these and
unfold no operation. -/

namespace Sys2Proof.Machine

theorem canAdvance_iff (s : State) : s.canAdvance = true ↔ (s.pc + 4#32 ≠ 0#32 ∨ s.textEnd = 0#32) := by
  simp [State.canAdvance]

theorem ended_iff (s : State) : s.ended = true ↔ s.pc = s.textEnd := by
  simp [State.ended]

theorem pcAligned_iff (s : State) : s.pcAligned = true ↔ s.pc.toNat % 4 = 0 := by
  simp [State.pcAligned]

theorem invalidForm_iff (rt ra : Reg) : invalidForm rt ra = true ↔ ra = 0 ∨ ra = rt := by
  simp [invalidForm]

theorem complete_next {s t : State} {k : State → State} :
    complete s k = .next t ↔ s.canAdvance = true ∧ t = (k s).advancePc := by
  unfold complete refuse
  split
  · rename_i h
    exact ⟨fun e => ⟨h, (Host.Outcome.next.inj e).symm⟩, fun e => by rw [e.2]⟩
  · rename_i h
    exact ⟨nofun, fun e => absurd e.1 h⟩

theorem complete_fault {s : State} {k : State → State} {f : Fault} : complete s k ≠ .fault f := by
  unfold complete refuse
  split <;> simp

theorem complete_refused {s : State} {k : State → State} {r : Refusal} :
    complete s k = .refused r ↔ s.canAdvance = false ∧ r = .pcWrap := by
  unfold complete refuse
  split
  · rename_i h
    exact ⟨nofun, fun e => by rw [h] at e; cases e.1⟩
  · rename_i h
    exact ⟨fun e => ⟨by simpa using h, (Host.Outcome.refused.inj e).symm⟩, fun e => by rw [e.2]⟩

/-- A load answers a next state exactly when its two bytes are mapped and the pc may advance, and then that state. -/
theorem loadHalf_next {s t : State} {addr : Addr} {k : Half → State → State} :
    loadHalf s addr k = .next t ↔
      ∃ h, s.mem.memRead addr 2 = some h ∧ s.canAdvance = true ∧ t = (k h s).advancePc := by
  unfold loadHalf
  split
  · rename_i hr; simp [raiseStorageFault, hr]
  · rename_i h hr
    constructor
    · intro e; exact ⟨h, hr, complete_next.1 e⟩
    · rintro ⟨h', e, hc⟩
      obtain rfl : h = h' := Option.some.inj (hr.symm.trans e)
      exact complete_next.2 hc

/-- A load faults exactly when its access is not admitted, with the address of the access. -/
theorem loadHalf_fault {s : State} {addr : Addr} {k : Half → State → State} {f : Fault} :
    loadHalf s addr k = .fault f ↔ s.mem.memRead addr 2 = none ∧ f = .storageFault addr := by
  unfold loadHalf
  split
  · rename_i hr; simp [raiseStorageFault, hr, eq_comm]
  · rename_i h hr
    constructor
    · intro e; exact absurd e complete_fault
    · rintro ⟨e, -⟩; rw [hr] at e; cases e

/-- A load is refused exactly when its access is admitted and the pc would wrap. -/
theorem loadHalf_refused {s : State} {addr : Addr} {k : Half → State → State} {r : Refusal} :
    loadHalf s addr k = .refused r ↔
      (∃ h, s.mem.memRead addr 2 = some h) ∧ s.canAdvance = false ∧ r = .pcWrap := by
  unfold loadHalf
  split
  · rename_i hr; simp [raiseStorageFault, hr]
  · rename_i h hr
    rw [complete_refused]
    exact ⟨fun e => ⟨⟨h, hr⟩, e⟩, fun e => e.2⟩

/-- The form check passes the outcome on, or refuses an invalid form under the policy `refuse`. -/
theorem checkForm_cases (s : State) (rt ra : Reg) (o : Result) :
    (checkForm s rt ra o = .refused .invalidForm ∧ (ra = 0 ∨ ra = rt) ∧ s.policy = .refuse) ∨
    (checkForm s rt ra o = o ∧ ¬((ra = 0 ∨ ra = rt) ∧ s.policy = .refuse)) := by
  unfold checkForm refuse
  split
  · rename_i h
    simp only [Bool.and_eq_true, invalidForm_iff, beq_iff_eq] at h
    exact .inl ⟨rfl, h⟩
  · rename_i h
    simp only [Bool.and_eq_true, invalidForm_iff, beq_iff_eq] at h
    exact .inr ⟨rfl, h⟩

end Sys2Proof.Machine
end

