-- ==== Sys2Proof/Laws/PerInstr.lean ====
section
/-! SUPPORT. Families of statements about the instruction as syntax, one lemma per constructor. -/

namespace Sys2Proof.Laws

/-- The primary opcode of the row an instruction is (spec/30_encoding.md R40). -/
def primaryOpcode : Instr → BitVec 6
  | .lha _ _ _ => 42#6
  | .lhau _ _ _ => 43#6
  | .lhaux _ _ _ => 31#6
  | .lhax _ _ _ => 31#6

/-- The word of an instruction carries its row's primary opcode in `w[31:26]`, whatever its operands. -/
def OpcodeField.Statement (i : Instr) : Prop := fieldOPCD (encode i) = primaryOpcode i

theorem OpcodeField.lha (rt ra : Reg) (d : Half) : OpcodeField.Statement (.lha rt ra d) := fieldOPCD_encodeD _ _ _ _

theorem OpcodeField.lhau (rt ra : Reg) (d : Half) : OpcodeField.Statement (.lhau rt ra d) := fieldOPCD_encodeD _ _ _ _

theorem OpcodeField.lhaux (rt ra rb : Reg) : OpcodeField.Statement (.lhaux rt ra rb) := fieldOPCD_encodeX _ _ _ _

theorem OpcodeField.lhax (rt ra rb : Reg) : OpcodeField.Statement (.lhax rt ra rb) := fieldOPCD_encodeX _ _ _ _

end Sys2Proof.Laws
end

