-- ==== Sys2Proof/Laws/Step.lean ====
section
/-! SUPPORT. What an instruction and a step can do, said once: the inversion lemmas every invariant is derived from. -/

namespace Sys2Proof.Machine

/-- The register writes of an instruction whose halfword is `h` (R52 to R55), over the registers of the state before. -/
def registersAfter (i : Instr) (h : Half) (s : State) : Vector DWord 32 :=
  match i with
  | .lha rt _ _ => s.x.set rt (h.signExtend 64)
  | .lhau rt ra _ => (s.x.set rt (h.signExtend 64)).set ra (effectiveAddressOf i s)
  | .lhaux rt ra _ => (s.x.set rt (h.signExtend 64)).set ra (effectiveAddressOf i s)
  | .lhax rt _ _ => s.x.set rt (h.signExtend 64)

theorem wellFormed_lhau (rt ra : Reg) (d : Half) : (Instr.lhau rt ra d).wellFormed = false ↔ ra = 0 ∨ ra = rt := by
  show (ra != 0 && ra != rt) = false ↔ _
  by_cases h : ra = 0 <;> simp [h]

theorem wellFormed_lhaux (rt ra rb : Reg) : (Instr.lhaux rt ra rb).wellFormed = false ↔ ra = 0 ∨ ra = rt := by
  show (ra != 0 && ra != rt) = false ↔ _
  by_cases h : ra = 0 <;> simp [h]

/-- A meaning is its form check over one load. -/
theorem exec_eq (i : Instr) (s : State) :
    exec i s =
      if i.wellFormed = false ∧ s.policy = .refuse then .refused .invalidForm
      else loadHalf s (dataAddress i s) fun h s' => { s' with x := registersAfter i h s } := by
  cases i with
  | lha rt ra d =>
    simp only [exec, Instr.wellFormed, Bool.true_eq_false, false_and, if_false]
    simp only [execLha, loadHalf, complete]
    rfl
  | lhax rt ra rb =>
    simp only [exec, Instr.wellFormed, Bool.true_eq_false, false_and, if_false]
    simp only [execLhax, loadHalf, complete]
    rfl
  | lhau rt ra d =>
    rcases checkForm_cases s rt ra
      (loadHalf s (dataAddress (.lhau rt ra d) s) fun h s' => { s' with x := registersAfter (.lhau rt ra d) h s })
      with ⟨e, hf⟩ | ⟨e, hf⟩ <;> rw [← wellFormed_lhau rt ra d] at hf
    · rw [if_pos hf, ← e]
      simp only [exec, execLhau, checkForm, loadHalf, complete]
      rfl
    · rw [if_neg hf, ← e]
      simp only [exec, execLhau, checkForm, loadHalf, complete]
      rfl
  | lhaux rt ra rb =>
    rcases checkForm_cases s rt ra
      (loadHalf s (dataAddress (.lhaux rt ra rb) s) fun h s' => { s' with x := registersAfter (.lhaux rt ra rb) h s })
      with ⟨e, hf⟩ | ⟨e, hf⟩ <;> rw [← wellFormed_lhaux rt ra rb] at hf
    · rw [if_pos hf, ← e]
      simp only [exec, execLhaux, checkForm, loadHalf, complete]
      rfl
    · rw [if_neg hf, ← e]
      simp only [exec, execLhaux, checkForm, loadHalf, complete]
      rfl

/-- A refused form is refused before anything is read (R43). -/
theorem exec_of_refusedForm {i : Instr} {s : State} (h : refusedForm i s) : exec i s = .refused .invalidForm := by
  rw [exec_eq]; exact if_pos h

/-- Any other form is one load. -/
theorem exec_of_not_refusedForm {i : Instr} {s : State} (h : ¬refusedForm i s) :
    exec i s = loadHalf s (dataAddress i s) fun h s' => { s' with x := registersAfter i h s } := by
  rw [exec_eq]; exact if_neg h

/-- Everything an instruction does when it answers a next state. -/
theorem exec_next {i : Instr} {s t : State} (e : exec i s = .next t) :
    ∃ h, s.mem.memRead (dataAddress i s) 2 = some h ∧ s.canAdvance = true ∧
      t = { s with x := registersAfter i h s, pc := s.pc + 4#32 } := by
  rw [exec_eq] at e
  split at e
  · cases e
  · obtain ⟨h, hr, hc, rfl⟩ := loadHalf_next.1 e
    exact ⟨h, hr, hc, rfl⟩

/-- What fetch answers when there is an instruction to run (R72, R64 checks 1 to 3). -/
theorem fetch_run {s : State} {i : Instr} (e : fetch s = .run i) :
    s.ended = false ∧ s.pcAligned = true ∧ ∃ w, s.fetchWord = some w ∧ decode w = .ok i := by
  unfold fetch at e
  split at e
  · cases e
  · rename_i he
    split at e
    · rename_i ha
      split at e
      · cases e
      · rename_i w hw
        split at e
        · cases e
        · rename_i j hd
          cases e
          exact ⟨by simpa using he, ha, w, hw, hd⟩
    · cases e

/-- Everything that can be when a step answers a next state: the run had ended, or an instruction completed. -/
theorem step_next {s t : State} (e : step s = .next t) :
    (s.pc = s.textEnd ∧ t = s) ∨
    (s.pc ≠ s.textEnd ∧ s.pc.toNat % 4 = 0 ∧
      ∃ w i, s.fetchWord = some w ∧ decode w = .ok i ∧ exec i s = .next t) := by
  unfold step at e
  split at e
  · rename_i o ho
    subst e
    unfold fetch at ho
    split at ho
    · rename_i he
      cases ho
      exact .inl ⟨(ended_iff s).1 he, rfl⟩
    · split at ho
      · split at ho
        · cases ho
        · split at ho <;> cases ho
      · cases ho
  · rename_i i hi
    obtain ⟨he, ha, w, hw, hd⟩ := fetch_run hi
    exact .inr ⟨fun h => by simp [(ended_iff s).2 h] at he, (pcAligned_iff s).1 ha, w, i, hw, hd, e⟩

end Sys2Proof.Machine
end

