-- ==== Sys2Proof/Laws/Runs.lean ====
section
/-! SUPPORT. Runs, one step at a time: an induction over a run peels its first step. -/

namespace Sys2Proof.Machine

theorem reaches_zero {s t : State} : Reaches 0 s t ↔ t = s :=
  ⟨fun h => (Host.Outcome.next.inj h).symm, fun h => by subst h; rfl⟩

theorem run_succ_next {M : Host.Core} {k : Nat} {s t : M.State} :
    M.run (k + 1) s = .next t ↔ ∃ u, M.step s = .next u ∧ M.run k u = .next t := by
  simp only [Host.Core.run]
  cases M.step s <;> simp

theorem reaches_succ {k : Nat} {s t : State} :
    Reaches (k + 1) s t ↔ ∃ u, step s = .next u ∧ Reaches k u t :=
  run_succ_next (M := Sys2Proof.core)

end Sys2Proof.Machine
end

