-- ==== Sys2Proof/Machine/Assembly.lean ====
section
/-! DEFINITION. The assembler syntax of spec/30_encoding.md R45, as the spec prints it. Text is a list of characters, so
that the kernel evaluates it. -/

namespace Sys2Proof.Machine

/-- A general register: `r0` to `r31` (R45). -/
def gprText (r : Reg) : List Char := 'r' :: Nat.toDigits 10 r.val

/-- An `[RA0]` operand: the bare digit `0` for field 0, a register otherwise (R45; spec/92_eei_decisions.md D24). -/
def ra0Text (r : Reg) : List Char := if r = 0 then ['0'] else gprText r

/-- A displacement, a decimal integer in -32768..32767 (R45; decimal is log entry 20's choice). -/
def displacementText (d : Half) : List Char :=
  match d.toInt with
  | .ofNat n => Nat.toDigits 10 n
  | .negSucc n => '-' :: Nat.toDigits 10 (n + 1)

/-- Operands separated as R45 separates them. -/
def commaText : List Char := [',', ' ']

/-- `d(base)`. -/
def indirectText (d : Half) (base : List Char) : List Char := displacementText d ++ ['('] ++ base ++ [')']

/-- The assembly text of an instruction (R45). -/
def assembly : Instr → List Char
  | .lha rt ra d => ['l', 'h', 'a', ' '] ++ gprText rt ++ commaText ++ indirectText d (ra0Text ra)
  | .lhau rt ra d => ['l', 'h', 'a', 'u', ' '] ++ gprText rt ++ commaText ++ indirectText d (gprText ra)
  | .lhaux rt ra rb =>
    ['l', 'h', 'a', 'u', 'x', ' '] ++ gprText rt ++ commaText ++ gprText ra ++ commaText ++ gprText rb
  | .lhax rt ra rb =>
    ['l', 'h', 'a', 'x', ' '] ++ gprText rt ++ commaText ++ ra0Text ra ++ commaText ++ gprText rb

end Sys2Proof.Machine
end

