-- ==== Sys2Proof/Tests/Slice0.lean ====
section
/-! SUPPORT. The model's own tests, with expected values from spec/95_test_vectors.md, and for each statement with
hypotheses a state and operands that meet them, clause by clause. -/

namespace Sys2Proof.Tests

open Sys2Proof.Machine

/-! ### Helpers -/

/-- The four bytes of a word at an address, most significant first, written out. -/
def wordAt (a : Nat) (w : Word) : Memory :=
  [(a, w.extractLsb 31 24), (a + 1, w.extractLsb 23 16), (a + 2, w.extractLsb 15 8), (a + 3, w.extractLsb 7 0)]

/-- A state at a pc with some registers and memory set; `text_end` lies elsewhere and the policy is the default. -/
def stateAt (pc : Addr) (regs : List (Reg × DWord)) (mem : Memory) : State :=
  regs.foldl (fun s p => s.writeX p.1 p.2) { State.reset with pc := pc, mem := mem, textEnd := 0x80000000#32 }

/-- A register of the next state, where there is one. -/
def regAfter (o : Result) (r : Reg) : Option DWord :=
  match o with
  | .next s => some s.x[r]
  | .fault _ => none
  | .refused _ => none

/-- The pc of the next state, where there is one. -/
def pcAfter (o : Result) : Option Addr :=
  match o with
  | .next s => some s.pc
  | .fault _ => none
  | .refused _ => none

/-- The fault or the refusal of an outcome. -/
def stopOf (o : Result) : Option (Fault ⊕ Refusal) :=
  match o with
  | .next _ => none
  | .fault f => some (.inl f)
  | .refused r => some (.inr r)

theorem next_of_pcAfter {o : Result} (h : (pcAfter o).isSome = true) : ∃ t, o = .next t := by
  cases o with
  | next s => exact ⟨s, rfl⟩
  | fault f => cases h
  | refused r => cases h

/-! ### WellFormed: each check refuses an ill-formed term -/

theorem test_wf_lhau_ra_zero : (Instr.lhau 3 0 4#16).wellFormed = false := by decide
theorem test_wf_lhau_ra_is_rt : (Instr.lhau 3 3 0#16).wellFormed = false := by decide
theorem test_wf_lhaux_ra_zero : (Instr.lhaux 4 0 5).wellFormed = false := by decide
theorem test_wf_lhaux_ra_is_rt : (Instr.lhaux 4 4 5).wellFormed = false := by decide
theorem test_wf_accepts :
    (Instr.lha 31 31 0xFFFF#16).wellFormed = true ∧ (Instr.lhax 0 0 0).wellFormed = true ∧
    (Instr.lhau 6 7 0#16).wellFormed = true ∧ (Instr.lhaux 11 12 11).wellFormed = true := by decide

/-! ### Decode and encode: words from the encoding tables (V1 to V13) -/

theorem test_decode_lha : decode 0b10101000011001001111111111111110#32 = .ok (.lha 3 4 0xFFFE#16) := by decide
theorem test_decode_lhau : decode 0b10101100110001111000000000000000#32 = .ok (.lhau 6 7 0x8000#16) := by decide
theorem test_decode_lhaux : decode 0b01111101011011000110101011101110#32 = .ok (.lhaux 11 12 13) := by decide
theorem test_decode_lhax : decode 0b01111101000010010101001010101110#32 = .ok (.lhax 8 9 10) := by decide
theorem test_decode_invalid_forms :
    decode 0xAC600004#32 = .ok (.lhau 3 0 4#16) ∧ decode 0x7C842AEE#32 = .ok (.lhaux 4 4 5) := by decide
theorem test_decode_rejects :
    decode 0x7D0952EF#32 = .error .rcSet ∧ decode 0xA0000000#32 = .error .notInSpec ∧
    decode 0x00000000#32 = .error .notInSpec ∧ decodeBytes [0xA8#8, 0x64#8, 0xFF#8] = .error .tooFewBytes := by decide
theorem test_decodeBytes_leaves_the_rest :
    decodeBytes [0xA8#8, 0x64#8, 0xFF#8, 0xFE#8, 0x55#8] = .ok (.lha 3 4 0xFFFE#16, [0x55#8]) := by decide
theorem test_encode :
    encode (.lha 3 4 0xFFFE#16) = 0xA864FFFE#32 ∧ encode (.lhau 6 7 2#16) = 0xACC70002#32 ∧
    encode (.lhaux 11 12 13) = 0x7D6C6AEE#32 ∧ encode (.lhax 8 0 10) = 0x7D0052AE#32 := by decide
theorem test_table_words :
    decodeTableWord 32 0xA8000000 = some (.lha 0 0 0#16) ∧ decodeTableWord 32 0xAC000000 = some (.lhau 0 0 0#16) ∧
    decodeTableWord 32 0x7C0002EE = some (.lhaux 0 0 0) ∧ decodeTableWord 32 0x7C0002AE = some (.lhax 0 0 0) := by
  decide

/-! ### Assembly text (R45, V1, V2, V7, V8) -/

theorem test_assembly_lha : assembly (.lha 3 4 0xFFFE#16) =
    ['l', 'h', 'a', ' ', 'r', '3', ',', ' ', '-', '2', '(', 'r', '4', ')'] := by decide
theorem test_assembly_literal_zero : assembly (.lha 5 0 16#16) =
    ['l', 'h', 'a', ' ', 'r', '5', ',', ' ', '1', '6', '(', '0', ')'] := by decide
theorem test_assembly_lhax : assembly (.lhax 8 0 10) =
    ['l', 'h', 'a', 'x', ' ', 'r', '8', ',', ' ', '0', ',', ' ', 'r', '1', '0'] := by decide
theorem test_assembly_lhaux : assembly (.lhaux 11 12 13) =
    ['l', 'h', 'a', 'u', 'x', ' ', 'r', '1', '1', ',', ' ', 'r', '1', '2', ',', ' ', 'r', '1', '3'] := by decide

/-! ### One step of each instruction -/

/-- V20: `lha r4, 32767(r4)`, the base read before the write, at an odd address. -/
def lhaOwnBase : State :=
  stateAt 0x100#32 [(4, 0x1000#64)] (wordAt 0x100 0xA8847FFF#32 ++ [(0x8FFF, 0xFE#8), (0x9000, 0xDC#8)])

theorem test_lha_own_base : regAfter (step lhaOwnBase) 4 = some 0xFFFFFFFFFFFFFEDC#64 := by decide

/-- V17: `lha r5, -2(0)`, the last halfword of the address space, the literal zero as base (not `r0`). -/
def lhaTop : State :=
  stateAt 0x100#32 [(0, 0xDEAD0000#64)] (wordAt 0x100 0xA8A0FFFE#32 ++ [(0xFFFFFFFE, 0x80#8), (0xFFFFFFFF, 0x01#8)])

theorem test_lha_literal_zero_top :
    regAfter (step lhaTop) 5 = some 0xFFFFFFFFFFFF8001#64 ∧ pcAfter (step lhaTop) = some 0x104#32 := by decide

/-- V26: `lhau r6, 2(r7)`, a sum at or above 2^32. -/
def lhauHigh : State :=
  stateAt 0x100#32 [(7, 0x0000000100001FFE#64)] (wordAt 0x100 0xACC70002#32 ++ [(0x2000, 0x00#8), (0x2001, 0x07#8)])

theorem test_lhau_high_sum :
    regAfter (step lhauHigh) 6 = some 7#64 ∧ regAfter (step lhauHigh) 7 = some 0x0000000100002000#64 := by decide

/-- V29: `lhau r6, -32768(r7)`. -/
def lhauLow : State :=
  stateAt 0x100#32 [(7, 0x9000#64)] (wordAt 0x100 0xACC78000#32 ++ [(0x1000, 0x00#8), (0x1001, 0x01#8)])

theorem test_lhau_smallest_displacement :
    regAfter (step lhauLow) 6 = some 1#64 ∧ regAfter (step lhauLow) 7 = some 0x1000#64 := by decide

/-- V27: `lhaux r11, r12, r13`, a negative sum. -/
def lhauxNegative : State :=
  stateAt 0x100#32 [(12, 0x1000#64), (13, 0xFFFFFFFFFFFFE000#64)]
    (wordAt 0x100 0x7D6C6AEE#32 ++ [(0xFFFFF000, 0xC0#8), (0xFFFFF001, 0x00#8)])

theorem test_lhaux_negative_sum :
    regAfter (step lhauxNegative) 11 = some 0xFFFFFFFFFFFFC000#64 ∧
    regAfter (step lhauxNegative) 12 = some 0xFFFFFFFFFFFFF000#64 := by decide

/-- V35: `lhaux r11, r12, r11`, the index read before the write. -/
def lhauxOwnIndex : State :=
  stateAt 0x100#32 [(12, 0x3000#64), (11, 0x10#64)]
    (wordAt 0x100 0x7D6C5AEE#32 ++ [(0x3010, 0xFF#8), (0x3011, 0xFE#8)])

theorem test_lhaux_own_index :
    regAfter (step lhauxOwnIndex) 11 = some 0xFFFFFFFFFFFFFFFE#64 ∧
    regAfter (step lhauxOwnIndex) 12 = some 0x3010#64 := by decide

/-- V38: `lhax r8, 0, r10`, the literal zero as base. -/
def lhaxZero : State :=
  stateAt 0x100#32 [(0, 0x7777#64), (10, 0x4000#64)] (wordAt 0x100 0x7D0052AE#32 ++ [(0x4000, 0x7F#8), (0x4001, 0xFF#8)])

theorem test_lhax_literal_zero :
    regAfter (step lhaxZero) 8 = some 0x7FFF#64 ∧ regAfter (step lhaxZero) 0 = some 0x7777#64 := by decide

/-- V40: `lhax r8, r9, r0`, where `RB = 0` is the register `r0`. -/
def lhaxIndexZero : State :=
  stateAt 0x100#32 [(9, 0x4000#64), (0, 0x3#64)] (wordAt 0x100 0x7D0902AE#32 ++ [(0x4003, 0x00#8), (0x4004, 0x80#8)])

theorem test_lhax_index_zero : regAfter (step lhaxIndexZero) 8 = some 0x80#64 := by decide

/-! ### Stops and policies -/

/-- V23: `lha r3, 0(r4)` at the last byte of the address space. -/
def lhaPastTop : State :=
  stateAt 0x100#32 [(4, 0xFFFFFFFF#64)] (wordAt 0x100 0xA8640000#32 ++ [(0xFFFFFFFF, 0x12#8)])

theorem test_storage_fault_at_the_top : stopOf (step lhaPastTop) = some (.inl (.storageFault 0xFFFFFFFF#32)) := by decide

/-- V24: the same word at a misaligned pc. -/
def misaligned : State := stateAt 0x102#32 [] (wordAt 0x102 0xA8640000#32)

theorem test_pc_misaligned : stopOf (step misaligned) = some (.inr .pcMisaligned) := by decide

/-- V31: `lhau r3, 4(r3)`. -/
def lhauOwnBase : State :=
  stateAt 0x100#32 [(3, 0x5000#64)] (wordAt 0x100 0xAC630004#32 ++ [(0x5004, 0xFF#8), (0x5005, 0xFF#8)])

theorem test_invalid_form_refused : stopOf (step lhauOwnBase) = some (.inr .invalidForm) := by decide
theorem test_invalid_form_snapshot :
    regAfter (step { lhauOwnBase with policy := .snapshot }) 3 = some 0x5004#64 := by decide

/-- V37: `lhaux r4, r0, r5`, whose base is the register `r0`. -/
def lhauxBaseZero : State :=
  stateAt 0x100#32 [(0, 0x5000#64), (5, 0x10#64)]
    ([(0x10, 0x22#8), (0x11, 0x22#8)] ++ wordAt 0x100 0x7C802AEE#32 ++ [(0x5010, 0x12#8), (0x5011, 0x34#8)])

theorem test_invalid_form_snapshot_base_zero :
    regAfter (step { lhauxBaseZero with policy := .snapshot }) 4 = some 0x1234#64 ∧
    regAfter (step { lhauxBaseZero with policy := .snapshot }) 0 = some 0x5010#64 := by decide

/-- `lha r5, 16(0)` as the last word of the address space. -/
def lastWord : State :=
  stateAt 0xFFFFFFFC#32 [] ([(0x10, 0x00#8), (0x11, 0x2A#8)] ++ wordAt 0xFFFFFFFC 0xA8A00010#32)

theorem test_pc_wrap_refused : stopOf (step lastWord) = some (.inr .pcWrap) := by decide
theorem test_pc_wrap_is_the_end :
    pcAfter (step { lastWord with textEnd := 0#32 }) = some 0#32 ∧
    regAfter (step { lastWord with textEnd := 0#32 }) 5 = some 0x2A#64 := by decide

/-- The opcode word of `lha` runs as the first instruction after reset (S1). -/
theorem test_reset_runs_placed_lha :
    pcAfter (step (State.reset.withFetchWord 32 0xA8000000)) = some 4#32 := by decide

theorem test_step_at_end : pcAfter (step State.reset) = some 0#32 := by decide

/-! ### The hypotheses of the statements are met

Each theorem gives one state and one choice of operands that meet all the hypotheses of the statement (or of the clause)
it names, at a boundary of their range. -/

theorem witness_EncodeOfDecodeIsTheWord : decode 0xABFFFFFF#32 = .ok (.lha 31 31 0xFFFF#16) := by decide

theorem witness_DecodeReadsTheFields :
    ((0xABFFFFFF#32).extractLsb 31 26 = 42#6) ∧ ((0xAFFFFFFF#32).extractLsb 31 26 = 43#6) ∧
    ((0x7FFFFAAE#32).extractLsb 31 26 = 31#6 ∧ (0x7FFFFAAE#32).extractLsb 10 1 = 343#10 ∧
      (0x7FFFFAAE#32).extractLsb 0 0 = 0#1) ∧
    ((0x7FFFFAEE#32).extractLsb 31 26 = 31#6 ∧ (0x7FFFFAEE#32).extractLsb 10 1 = 375#10 ∧
      (0x7FFFFAEE#32).extractLsb 0 0 = 0#1) ∧
    ((0x7C0002AF#32).extractLsb 31 26 ≠ 42#6 ∧ (0x7C0002AF#32).extractLsb 31 26 ≠ 43#6 ∧
      ¬((0x7C0002AF#32).extractLsb 31 26 = 31#6 ∧
        ((0x7C0002AF#32).extractLsb 10 1 = 343#10 ∨ (0x7C0002AF#32).extractLsb 10 1 = 375#10) ∧
        (0x7C0002AF#32).extractLsb 0 0 = 0#1)) := by decide

/-- A state about to fetch a word at the address 0x100. -/
def fetching (w : Word) : State := stateAt 0x100#32 [] (wordAt 0x100 w)

theorem witness_StepRefusesWordsOutsideTheSpec_rcSet :
    (fetching 0x7D0952EF#32).pc ≠ (fetching 0x7D0952EF#32).textEnd ∧ (fetching 0x7D0952EF#32).pc.toNat % 4 = 0 ∧
    (fetching 0x7D0952EF#32).mem.memRead (fetching 0x7D0952EF#32).pc 4 = some 0x7D0952EF#32 ∧
    (0x7D0952EF#32 : Word) &&& 0xFC0007FF#32 = 0x7C0002EF#32 := by decide

theorem witness_StepRefusesWordsOutsideTheSpec_notInSpec :
    (fetching 0x7C0002AC#32).pc ≠ (fetching 0x7C0002AC#32).textEnd ∧ (fetching 0x7C0002AC#32).pc.toNat % 4 = 0 ∧
    (fetching 0x7C0002AC#32).mem.memRead (fetching 0x7C0002AC#32).pc 4 = some 0x7C0002AC#32 ∧
    (0x7C0002AC#32 : Word) &&& 0xFC000000#32 ≠ 0xA8000000#32 ∧ (0x7C0002AC#32 : Word) &&& 0xFC000000#32 ≠ 0xAC000000#32 ∧
    (0x7C0002AC#32 : Word) &&& 0xFC0007FE#32 ≠ 0x7C0002EE#32 ∧
    (0x7C0002AC#32 : Word) &&& 0xFC0007FE#32 ≠ 0x7C0002AE#32 := by decide

theorem witness_StepRunsTheInstructionAtThePc :
    lastWord.pc ≠ lastWord.textEnd ∧ lastWord.pc.toNat % 4 = 0 ∧ lastWord.mem.byte lastWord.pc.toNat = some 0xA8#8 ∧
    lastWord.mem.byte (lastWord.pc.toNat + 1) = some 0xA0#8 ∧ lastWord.mem.byte (lastWord.pc.toNat + 2) = some 0x00#8 ∧
    lastWord.mem.byte (lastWord.pc.toNat + 3) = some 0x10#8 ∧
    decode (0xA8#8 ++ 0xA0#8 ++ 0x00#8 ++ 0x10#8) = .ok (.lha 5 0 0x10#16) := by decide

theorem witness_ChecksAreMadeInOrder_misaligned :
    misaligned.pc ≠ misaligned.textEnd ∧ misaligned.pc.toNat % 4 ≠ 0 := by decide

theorem witness_ChecksAreMadeInOrder_unmapped :
    (stateAt 0xFFFFFFFC#32 [] []).pc ≠ (stateAt 0xFFFFFFFC#32 [] []).textEnd ∧
    (stateAt 0xFFFFFFFC#32 [] []).pc.toNat % 4 = 0 ∧
    (stateAt 0xFFFFFFFC#32 [] []).mem.memRead (stateAt 0xFFFFFFFC#32 [] []).pc 4 = none := by decide

theorem witness_ChecksAreMadeInOrder_rejected :
    (fetching 0#32).pc ≠ (fetching 0#32).textEnd ∧ (fetching 0#32).pc.toNat % 4 = 0 ∧
    (fetching 0#32).mem.memRead (fetching 0#32).pc 4 = some 0#32 ∧ decode 0#32 = .error .notInSpec := by decide

theorem witness_ChecksAreMadeInOrder_refusedForm :
    lhauOwnBase.pc ≠ lhauOwnBase.textEnd ∧ lhauOwnBase.pc.toNat % 4 = 0 ∧
    lhauOwnBase.mem.memRead lhauOwnBase.pc 4 = some 0xAC630004#32 ∧ decode 0xAC630004#32 = .ok (.lhau 3 3 4#16) ∧
    refusedForm (.lhau 3 3 4#16) lhauOwnBase := by decide

theorem witness_ChecksAreMadeInOrder_dataUnmapped :
    lhaPastTop.pc ≠ lhaPastTop.textEnd ∧ lhaPastTop.pc.toNat % 4 = 0 ∧
    lhaPastTop.mem.memRead lhaPastTop.pc 4 = some 0xA8640000#32 ∧ decode 0xA8640000#32 = .ok (.lha 3 4 0#16) ∧
    ¬refusedForm (.lha 3 4 0#16) lhaPastTop ∧
    lhaPastTop.mem.memRead (dataAddress (.lha 3 4 0#16) lhaPastTop) 2 = none := by decide

theorem witness_ChecksAreMadeInOrder_wrap :
    lastWord.pc ≠ lastWord.textEnd ∧ lastWord.pc.toNat % 4 = 0 ∧
    lastWord.mem.memRead lastWord.pc 4 = some 0xA8A00010#32 ∧ decode 0xA8A00010#32 = .ok (.lha 5 0 0x10#16) ∧
    ¬refusedForm (.lha 5 0 0x10#16) lastWord ∧
    lastWord.mem.memRead (dataAddress (.lha 5 0 0x10#16) lastWord) 2 = some 0x2A#16 ∧
    (lastWord.pc + 4#32 = 0#32 ∧ lastWord.textEnd ≠ 0#32) := by decide

theorem witness_ChecksAreMadeInOrder_completes :
    lhauHigh.pc ≠ lhauHigh.textEnd ∧ lhauHigh.pc.toNat % 4 = 0 ∧
    lhauHigh.mem.memRead lhauHigh.pc 4 = some 0xACC70002#32 ∧ decode 0xACC70002#32 = .ok (.lhau 6 7 2#16) ∧
    ¬refusedForm (.lhau 6 7 2#16) lhauHigh ∧
    lhauHigh.mem.memRead (dataAddress (.lhau 6 7 2#16) lhauHigh) 2 = some 7#16 ∧
    ¬(lhauHigh.pc + 4#32 = 0#32 ∧ lhauHigh.textEnd ≠ 0#32) := by decide

theorem witness_EndOfRunIsFinal : State.reset.pc = State.reset.textEnd := by decide

theorem refused_of_stopOf {o : Result} {r : Refusal} (h : stopOf o = some (.inr r)) : o = .refused r := by
  cases o with
  | next s => cases h
  | fault f => cases h
  | refused q => simpa [stopOf] using h

theorem witness_RefusalsAreTheClosedList :
    step misaligned = .refused .pcMisaligned ∧ step lastWord = .refused .pcWrap ∧
    step (fetching 0x7C0002AF#32) = .refused .rcSet ∧ step (fetching 0#32) = .refused .notInSpec ∧
    step lhauOwnBase = .refused .invalidForm :=
  ⟨refused_of_stopOf (by decide), refused_of_stopOf (by decide), refused_of_stopOf (by decide),
    refused_of_stopOf (by decide), refused_of_stopOf (by decide)⟩

theorem fault_of_stopOf {o : Result} {f : Fault} (h : stopOf o = some (.inl f)) : o = .fault f := by
  cases o with
  | next s => cases h
  | fault q => simpa [stopOf] using h
  | refused r => cases h

theorem witness_FaultsAreUnadmittedAccesses :
    step (stateAt 0xFFFFFFFC#32 [] []) = .fault (.storageFault 0xFFFFFFFC#32) ∧
    step lhaPastTop = .fault (.storageFault 0xFFFFFFFF#32) :=
  ⟨fault_of_stopOf (by decide), fault_of_stopOf (by decide)⟩

theorem witness_LhaFollowsItsRule_completes :
    lhaTop.mem.byte (dataAddress (.lha 5 0 0xFFFE#16) lhaTop).toNat = some 0x80#8 ∧
    lhaTop.mem.byte ((dataAddress (.lha 5 0 0xFFFE#16) lhaTop).toNat + 1) = some 0x01#8 ∧
    lhaTop.pc + 4#32 ≠ 0#32 := by decide

theorem witness_LhaFollowsItsRule_faults :
    lhaPastTop.mem.byte ((dataAddress (.lha 3 4 0#16) lhaPastTop).toNat + 1) = none := by decide

theorem witness_LhauFollowsItsRule_completes :
    (7 : Reg) ≠ 0 ∧ (7 : Reg) ≠ 6 ∧ lhauLow.mem.byte (dataAddress (.lhau 6 7 0x8000#16) lhauLow).toNat = some 0x00#8 ∧
    lhauLow.mem.byte ((dataAddress (.lhau 6 7 0x8000#16) lhauLow).toNat + 1) = some 0x01#8 ∧
    lhauLow.pc + 4#32 ≠ 0#32 := by decide

theorem witness_LhauFollowsItsRule_faults :
    (7 : Reg) ≠ 0 ∧ (7 : Reg) ≠ 6 ∧ lhauLow.mem.byte (dataAddress (.lhau 6 7 0x7FFF#16) lhauLow).toNat = none := by decide

theorem witness_LhauFollowsItsRule_refused :
    (lhauOwnBase.policy = .refuse ∧ ((3 : Reg) = 0 ∨ (3 : Reg) = 3)) ∧ ((0 : Reg) = 0 ∨ (0 : Reg) = 31) := by decide

theorem witness_LhauxFollowsItsRule_completes :
    (12 : Reg) ≠ 0 ∧ (12 : Reg) ≠ 11 ∧
    lhauxNegative.mem.byte (dataAddress (.lhaux 11 12 13) lhauxNegative).toNat = some 0xC0#8 ∧
    lhauxNegative.mem.byte ((dataAddress (.lhaux 11 12 13) lhauxNegative).toNat + 1) = some 0x00#8 ∧
    lhauxNegative.pc + 4#32 ≠ 0#32 := by decide

theorem witness_LhauxFollowsItsRule_faults :
    (12 : Reg) ≠ 0 ∧ (12 : Reg) ≠ 31 ∧
    lhauxNegative.mem.byte (dataAddress (.lhaux 31 12 12) lhauxNegative).toNat = none := by decide

theorem witness_LhauxFollowsItsRule_refused :
    lhauxBaseZero.policy = .refuse ∧ ((0 : Reg) = 0 ∨ (0 : Reg) = 4) := by decide

theorem witness_LhaxFollowsItsRule_completes :
    lhaxIndexZero.mem.byte (dataAddress (.lhax 8 9 0) lhaxIndexZero).toNat = some 0x00#8 ∧
    lhaxIndexZero.mem.byte ((dataAddress (.lhax 8 9 0) lhaxIndexZero).toNat + 1) = some 0x80#8 ∧
    lhaxIndexZero.pc + 4#32 ≠ 0#32 := by decide

theorem witness_LhaxFollowsItsRule_faults :
    lhaxZero.mem.byte (dataAddress (.lhax 31 0 31) lhaxZero).toNat = none := by decide

theorem witness_SnapshotPolicyRunsInvalidForms_ownBase :
    ({ lhauOwnBase with policy := .snapshot } : State).policy = .snapshot ∧ lhauOwnBase.pc + 4#32 ≠ 0#32 ∧
    lhauOwnBase.mem.byte ((0x5004#64).extractLsb 31 0).toNat = some 0xFF#8 ∧
    lhauOwnBase.mem.byte (((0x5004#64).extractLsb 31 0).toNat + 1) = some 0xFF#8 ∧
    0x5004#64 = lhauOwnBase.x[3] + (4#16).signExtend 64 ∧
    0x5004#64 = (lhauOwnBase.writeX 31 4#64).x[3] + (lhauOwnBase.writeX 31 4#64).x[31] := by decide

theorem witness_SnapshotPolicyRunsInvalidForms_baseZero :
    ({ lhauxBaseZero with policy := .snapshot } : State).policy = .snapshot ∧ lhauxBaseZero.pc + 4#32 ≠ 0#32 ∧
    lhauxBaseZero.mem.byte ((0x5010#64).extractLsb 31 0).toNat = some 0x12#8 ∧
    lhauxBaseZero.mem.byte (((0x5010#64).extractLsb 31 0).toNat + 1) = some 0x34#8 ∧ (4 : Reg) ≠ 0 ∧
    0x5010#64 = lhauxBaseZero.x[0] + lhauxBaseZero.x[5] ∧
    0x5010#64 = lhauxBaseZero.x[0] + (0x10#16).signExtend 64 := by decide

theorem witness_SnapshotPolicyRunsInvalidForms_faults :
    lhauxBaseZero.mem.memRead ((lhauxBaseZero.x[0] + (0x7FFF#16).signExtend 64).extractLsb 31 0) 2 = none ∧
    lhauxBaseZero.mem.memRead ((lhauxBaseZero.x[0] + lhauxBaseZero.x[0]).extractLsb 31 0) 2 = none := by decide

theorem witness_InstructionFrame :
    (∃ t, exec (.lha 5 0 0xFFFE#16) lhaTop = .next t) ∧ (∃ t, exec (.lhau 6 7 2#16) lhauHigh = .next t) ∧
    (∃ t, exec (.lhaux 11 12 13) lhauxNegative = .next t) ∧ (∃ t, exec (.lhax 8 9 0) lhaxIndexZero = .next t) :=
  ⟨next_of_pcAfter (by decide), next_of_pcAfter (by decide), next_of_pcAfter (by decide), next_of_pcAfter (by decide)⟩

theorem witness_CompletedInstructionsOnlyAdvanceThePc :
    (∃ t, exec (.lhau 6 7 2#16) lhauHigh = .next t) ∧
    ∃ t', exec (.lhau 6 7 2#16) { lhauHigh with pc := 0xFFFFFFF8#32 } = .next t' :=
  ⟨next_of_pcAfter (by decide), next_of_pcAfter (by decide)⟩

theorem witness_InstructionsReadOnlyTheirOperands :
    (∀ r ∈ (Instr.lhax 8 0 10).reads, (lhaxZero.x.set 0 1#64)[r] = lhaxZero.x[r]) ∧
    (∀ r ∈ (Instr.lha 5 0 0xFFFE#16).reads, (Vector.replicate 32 1#64)[r] = lhaTop.x[r]) := by decide

theorem witness_InstructionsReadOnlyTwoBytes :
    Memory.byte [(0xFFFFFFFE, 0x80#8), (0xFFFFFFFF, 0x01#8)] (dataAddress (.lha 5 0 0xFFFE#16) lhaTop).toNat =
      lhaTop.mem.byte (dataAddress (.lha 5 0 0xFFFE#16) lhaTop).toNat ∧
    Memory.byte [(0xFFFFFFFE, 0x80#8), (0xFFFFFFFF, 0x01#8)] ((dataAddress (.lha 5 0 0xFFFE#16) lhaTop).toNat + 1) =
      lhaTop.mem.byte ((dataAddress (.lha 5 0 0xFFFE#16) lhaTop).toNat + 1) := by decide

theorem witness_DestinationHoldsTheSignExtendedHalfword :
    (Instr.lhaux 11 12 13).wellFormed = true ∧ ∃ t, exec (.lhaux 11 12 13) lhauxNegative = .next t :=
  ⟨by decide, next_of_pcAfter (by decide)⟩

theorem witness_UpdateFormsWriteBackTheWholeSum :
    (∃ t, exec (.lhau 6 7 2#16) lhauHigh = .next t) ∧ (∃ t, exec (.lhaux 11 12 11) lhauxOwnIndex = .next t) ∧
    (∃ t, exec (.lhau 3 3 4#16) { lhauOwnBase with policy := .snapshot } = .next t) :=
  ⟨next_of_pcAfter (by decide), next_of_pcAfter (by decide), next_of_pcAfter (by decide)⟩

theorem witness_LowHalvesAgreeWithTheSnapshot :
    (∃ t, exec (.lhau 6 7 2#16) lhauHigh = .next t) ∧
    lhauHigh.mem.memRead (dataAddress (.lhau 6 7 2#16) lhauHigh) 2 = some 7#16 ∧
    (Instr.lhau 6 7 2#16).wellFormed = true ∧ (7#16).getLsbD 15 = false :=
  ⟨next_of_pcAfter (by decide), by decide, by decide, by decide⟩

theorem witness_NoRegisterIsHardwired : (31 : Reg) ≠ 0 := by decide

theorem witness_ReadsAreAdmittedByMapping :
    1 ≤ 2 ∧ lhaTop.mem.memRead 0xFFFFFFFE#32 2 = some 0x8001#16 ∧ lhaTop.mem.memRead 0xFFFFFFFF#32 2 = none := by decide

theorem witness_MemoryIsBigEndian :
    lhaTop.mem.memRead 0xFFFFFFFE#32 2 = some 0x8001#16 ∧ (0xFFFFFFFC#32 : Addr).toNat + 4 ≤ 2 ^ 32 ∧ 3 < 4 ∧
    0xFFFFFFFB < (0xFFFFFFFC#32 : Addr).toNat := by decide

theorem witness_HalfwordLoadsNeedNoAlignment :
    (lhaOwnBase.mem.byte (0x8FFF#32 : Addr).toNat = some 0xFE#8 ∧
      lhaOwnBase.mem.byte ((0x8FFF#32 : Addr).toNat + 1) = some 0xDC#8) ∧
    exec (.lha 3 4 0#16) lhaPastTop = .fault (.storageFault 0xFFFFFFFF#32) :=
  ⟨by decide, fault_of_stopOf (by decide)⟩

theorem witness_StepKeepsTheInvariant : lhauHigh.Inv ∧ ∃ t, step lhauHigh = .next t :=
  ⟨by unfold State.Inv; decide, next_of_pcAfter (by decide)⟩

theorem witness_RunsChangeOnlyRegistersAndPc : ∃ t, Reaches 1 lhauHigh t :=
  next_of_pcAfter (o := Sys2Proof.core.run 1 lhauHigh) (by decide)

/-- A launch of one instruction, `lhau r6, 2(r7)`, that ends after it. -/
def oneWordRun : State := { lhauHigh with textEnd := 0x104#32 }

theorem witness_RunsAreStraightLines :
    oneWordRun.pc.toNat % 4 = 0 ∧ oneWordRun.textEnd.toNat % 4 = 0 ∧ oneWordRun.pc.toNat ≤ oneWordRun.textEnd.toNat ∧
    ∃ t, Reaches 1 oneWordRun t :=
  ⟨by decide, by decide, by decide, next_of_pcAfter (o := Sys2Proof.core.run 1 oneWordRun) (by decide)⟩

theorem witness_RunsAreStraightLines_toTheTop :
    ({ lastWord with textEnd := 0#32 } : State).pc.toNat % 4 = 0 ∧
    ({ lastWord with textEnd := 0#32 } : State).textEnd.toNat % 4 = 0 ∧
    ({ lastWord with textEnd := 0#32 } : State).textEnd = 0#32 ∧ lastWord.pc ≠ 0#32 ∧
    ∃ t, Reaches 1 { lastWord with textEnd := 0#32 } t :=
  ⟨by decide, by decide, by decide, by decide,
    next_of_pcAfter (o := Sys2Proof.core.run 1 { lastWord with textEnd := 0#32 }) (by decide)⟩

theorem witness_RunsPastTheirEndNeverEnd :
    lastWord.textEnd.toNat < lastWord.pc.toNat ∧ lastWord.textEnd ≠ 0#32 := by decide

/-- `lha r5, 16(0)` as the last word but one, with `text_end` right below it. -/
def pastTheEnd : State :=
  { stateAt 0xFFFFFFF8#32 [] ([(0x10, 0x00#8), (0x11, 0x2A#8)] ++ wordAt 0xFFFFFFF8 0xA8A00010#32) with
    textEnd := 0xFFFFFFF4#32 }

theorem witness_StepKeepsThePcPastTheEnd :
    (pastTheEnd.textEnd.toNat < pastTheEnd.pc.toNat ∧ pastTheEnd.textEnd ≠ 0#32) ∧ ∃ t, step pastTheEnd = .next t :=
  ⟨by decide, next_of_pcAfter (by decide)⟩

theorem witness_LaunchedProgramsAreAlwaysFetched :
    oneWordRun.ProgramReady ∧ (∃ t, Reaches 0 oneWordRun t ∧ t.pc ≠ t.textEnd) ∧ ∃ t, Reaches 1 oneWordRun t := by
  refine ⟨⟨by decide, by decide, by decide, fun a h h' => ?_⟩, ⟨oneWordRun, rfl, by decide⟩,
    next_of_pcAfter (o := Sys2Proof.core.run 1 oneWordRun) (by decide)⟩
  have h1 : 256 ≤ a := h
  have h2 : a < 260 := h'
  obtain rfl | rfl | rfl | rfl : a = 256 ∨ a = 257 ∨ a = 258 ∨ a = 259 := by omega
  all_goals decide

theorem witness_LowHalvesDetermineTheRun :
    (∀ r : Reg, (lhauHigh.x.set 7 0xFFFFFFFF00001FFE#64)[r].extractLsb 31 0 = lhauHigh.x[r].extractLsb 31 0) ∧
    lhauHigh.x.set 7 0xFFFFFFFF00001FFE#64 ≠ lhauHigh.x ∧ ∃ t, Reaches 1 lhauHigh t :=
  ⟨by decide, by decide, next_of_pcAfter (o := Sys2Proof.core.run 1 lhauHigh) (by decide)⟩

theorem witness_PlacedWordIsRunNext :
    decode 0xA8A00010#32 = .ok (.lha 5 0 0x10#16) ∧ lastWord.pc.toNat % 4 = 0 ∧
    0xFFFFFFFB < (lastWord.withFetchWord 32 0xA8A00010).pc.toNat := by decide

end Sys2Proof.Tests
end

section
/-! PROOFS. What an instruction and a step leave unchanged, and where a run's pc goes (spec/10_state.md, family of
statements about the state). The frame is said once as an equation: the next state is the state before with other
registers and another pc. -/

namespace Sys2Proof.Machine

/-! ### Registers read and written by one instruction (R12) -/

theorem getElem_set_of_ne (x : Vector DWord 32) {q r : Reg} (v : DWord) (h : r ≠ q) : (x.set q v)[r] = x[r] :=
  Vector.getElem_set_ne _ _ fun e => h (Fin.ext e.symm)

/-- Two register files agree on a register after one write to both where they agreed on it or it is the one written. -/
theorem getElem_set_congr {x y : Vector DWord 32} {q r : Reg} (v : DWord) (h : y[r] = x[r] ∨ r = q) :
    (y.set q v)[r] = (x.set q v)[r] := by
  by_cases hq : r = q
  · subst hq; simp
  · rw [getElem_set_of_ne y v hq, getElem_set_of_ne x v hq]
    exact h.resolve_right hq

/-- A register R12 does not list as written keeps its contents. -/
theorem registersAfter_of_notMem_writes {i : Instr} {r : Reg} (h : Half) (s : State) (hr : r ∉ i.writes) :
    (registersAfter i h s)[r] = s.x[r] := by
  cases i with
  | lha rt ra d => exact getElem_set_of_ne _ _ (by simpa [Instr.writes] using hr)
  | lhax rt ra rb => exact getElem_set_of_ne _ _ (by simpa [Instr.writes] using hr)
  | lhau rt ra d =>
    obtain ⟨hrt, hra⟩ : r ≠ rt ∧ r ≠ ra := by simpa [Instr.writes] using hr
    exact (getElem_set_of_ne _ _ hra).trans (getElem_set_of_ne _ _ hrt)
  | lhaux rt ra rb =>
    obtain ⟨hrt, hra⟩ : r ≠ rt ∧ r ≠ ra := by simpa [Instr.writes] using hr
    exact (getElem_set_of_ne _ _ hra).trans (getElem_set_of_ne _ _ hrt)

section OtherRegisters
variable {i : Instr} {s : State} {y : Vector DWord 32} (hy : ∀ r ∈ i.reads, y[r] = s.x[r])
include hy

/-- The effective address depends on the registers R12 lists as read and on no other (R50). -/
theorem effectiveAddressOf_congr : effectiveAddressOf i { s with x := y } = effectiveAddressOf i s := by
  cases i with
  | lha rt ra d =>
    by_cases h0 : ra = 0
    · simp [effectiveAddressOf, h0]
    · have hra : y[ra] = s.x[ra] := hy ra (by simp [Instr.reads, h0])
      simp only [effectiveAddressOf, if_neg h0, hra]
  | lhau rt ra d =>
    have hra : y[ra] = s.x[ra] := hy ra (by simp [Instr.reads])
    simp only [effectiveAddressOf, hra]
  | lhaux rt ra rb =>
    have hra : y[ra] = s.x[ra] := hy ra (by simp [Instr.reads])
    have hrb : y[rb] = s.x[rb] := hy rb (by simp [Instr.reads])
    simp only [effectiveAddressOf, hra, hrb]
  | lhax rt ra rb =>
    by_cases h0 : ra = 0
    · have hrb : y[rb] = s.x[rb] := hy rb (by simp [Instr.reads, h0])
      simp only [effectiveAddressOf, if_pos h0, hrb]
    · have hra : y[ra] = s.x[ra] := hy ra (by simp [Instr.reads, h0])
      have hrb : y[rb] = s.x[rb] := hy rb (by simp [Instr.reads, h0])
      simp only [effectiveAddressOf, if_neg h0, hra, hrb]

theorem dataAddress_congr : dataAddress i { s with x := y } = dataAddress i s :=
  congrArg (BitVec.extractLsb' 0 32) (effectiveAddressOf_congr hy)

/-- The values written depend on the halfword and on the registers R12 lists as read. -/
theorem registersAfter_congr (h : Half) {r : Reg} (hr : r ∈ i.writes) :
    (registersAfter i h { s with x := y })[r] = (registersAfter i h s)[r] := by
  have hea := effectiveAddressOf_congr hy
  cases i with
  | lha rt ra d => exact getElem_set_congr _ (.inr (by simpa [Instr.writes] using hr))
  | lhax rt ra rb => exact getElem_set_congr _ (.inr (by simpa [Instr.writes] using hr))
  | lhau rt ra d =>
    have hr : r = rt ∨ r = ra := by simpa [Instr.writes] using hr
    simp only [registersAfter, hea]
    exact getElem_set_congr _ (hr.imp_left fun hrt => getElem_set_congr _ (.inr hrt))
  | lhaux rt ra rb =>
    have hr : r = rt ∨ r = ra := by simpa [Instr.writes] using hr
    simp only [registersAfter, hea]
    exact getElem_set_congr _ (hr.imp_left fun hrt => getElem_set_congr _ (.inr hrt))

end OtherRegisters

/-! ### What a step and a run leave unchanged (R15, R17, R18) -/

/-- What a step that answers a next state does: nothing at the end of the run, and elsewhere, at an aligned pc, it
advances the pc and changes no other part of the state but the registers. -/
theorem step_next_cases {s t : State} (e : step s = .next t) :
    (s.pc = s.textEnd ∧ t = s) ∨
    (s.pc ≠ s.textEnd ∧ s.pc.toNat % 4 = 0 ∧ s.canAdvance = true ∧ t = { s with x := t.x, pc := s.pc + 4#32 }) := by
  obtain hend | ⟨hne, ha, w, i, -, -, hx⟩ := step_next e
  · exact .inl hend
  · obtain ⟨h, -, hc, rfl⟩ := exec_next hx
    exact .inr ⟨hne, ha, hc, rfl⟩

theorem step_next_frame {s t : State} (e : step s = .next t) : t = { s with x := t.x, pc := t.pc } := by
  obtain ⟨-, rfl⟩ | ⟨-, -, -, ht⟩ := step_next_cases e
  · rfl
  · rw [ht]

theorem reaches_frame {k : Nat} {s t : State} (e : Reaches k s t) : t = { s with x := t.x, pc := t.pc } := by
  induction k generalizing s with
  | zero => rw [reaches_zero.1 e]
  | succ k ih =>
    obtain ⟨u, hs, hr⟩ := reaches_succ.1 e
    calc t = { u with x := t.x, pc := t.pc } := ih hr
      _ = { s with x := t.x, pc := t.pc } := by rw [step_next_frame hs]

theorem step_next_textEnd {s t : State} (e : step s = .next t) : t.textEnd = s.textEnd := by
  rw [step_next_frame e]

theorem reaches_textEnd {k : Nat} {s t : State} (e : Reaches k s t) : t.textEnd = s.textEnd := by
  rw [reaches_frame e]

/-! ### The pc after an instruction (R13, R14) -/

/-- The next address keeps the alignment, at the wrap to 0 too. -/
theorem add_four_aligned {p : Addr} (ha : p.toNat % 4 = 0) : (p + 4#32).toNat % 4 = 0 := by
  rw [BitVec.toNat_add, BitVec.toNat_ofNat]; omega

/-- Away from the last word of the address space the next address is the higher one. -/
theorem add_four_toNat {p : Addr} (ha : p.toNat % 4 = 0) (h0 : p + 4#32 ≠ 0#32) : (p + 4#32).toNat = p.toNat + 4 := by
  have hne : (p + 4#32).toNat ≠ 0 := fun h => h0 (BitVec.eq_of_toNat_eq h)
  have := p.isLt
  rw [BitVec.toNat_add, BitVec.toNat_ofNat] at hne ⊢
  omega

/-! ### The distance to the end of a run (R72) -/

/-- The bytes from the pc up to `text_end`, going round through 0 where `text_end` is below the pc. -/
def State.bytesLeft (s : State) : Nat := (s.textEnd - s.pc).toNat

theorem bytesLeft_eq (s : State) : s.bytesLeft = (2 ^ 32 - s.pc.toNat + s.textEnd.toNat) % 2 ^ 32 :=
  BitVec.toNat_sub s.textEnd s.pc

/-- A step leaves four bytes fewer, and none where none were left. -/
theorem step_bytesLeft {s t : State} (hend : s.textEnd.toNat % 4 = 0) (e : step s = .next t) :
    t.bytesLeft = s.bytesLeft - 4 := by
  have := s.pc.isLt
  have := s.textEnd.isLt
  obtain ⟨hpc, rfl⟩ | ⟨hne, ha, -, ht⟩ := step_next_cases e
  · rw [bytesLeft_eq, hpc]; omega
  · have hne : s.pc.toNat ≠ s.textEnd.toNat := fun h => hne (BitVec.eq_of_toNat_eq h)
    have htpc : t.pc = s.pc + 4#32 := by rw [ht]
    rw [bytesLeft_eq, bytesLeft_eq, step_next_textEnd e, htpc, BitVec.toNat_add, BitVec.toNat_ofNat]
    omega

theorem reaches_bytesLeft {k : Nat} {s t : State} (hend : s.textEnd.toNat % 4 = 0) (e : Reaches k s t) :
    t.bytesLeft = s.bytesLeft - 4 * k := by
  induction k generalizing s with
  | zero => rw [reaches_zero.1 e]; rfl
  | succ k ih =>
    obtain ⟨u, hs, hr⟩ := reaches_succ.1 e
    rw [ih ((step_next_textEnd hs).symm ▸ hend) hr, step_bytesLeft hend hs]
    omega

/-! ### The statements -/

/-- Settles O30: a step that answers a next state stores nothing, and its pc stays or advances by 4. -/
theorem stepKeepsTheInvariant : Obligations.StepKeepsTheInvariant := by
  intro s t hinv e
  obtain ⟨hmem, hcr, hfprs, hvrs, hpc⟩ := hinv
  obtain ⟨-, rfl⟩ | ⟨-, -, -, ht⟩ := step_next_cases e
  · exact ⟨hmem, hcr, hfprs, hvrs, hpc⟩
  · rw [ht]
    exact ⟨hmem, hcr, hfprs, hvrs, add_four_aligned hpc⟩

/-- Settles O38: the step is no end of a run, so its aligned pc advances by 4, and not to 0 since `text_end` is not 0. -/
theorem stepKeepsThePcPastTheEnd : Obligations.StepKeepsThePcPastTheEnd := by
  intro s t ⟨hlt, hnz⟩ e
  obtain ⟨hpc, -⟩ | ⟨-, ha, hc, ht⟩ := step_next_cases e
  · rw [hpc] at hlt; omega
  · have hup := add_four_toNat ha (((canAdvance_iff s).1 hc).resolve_right hnz)
    rw [ht]
    exact ⟨⟨Nat.lt_of_lt_of_eq (Nat.lt_add_right 4 hlt) hup.symm, hnz⟩, rfl⟩

/-- Settles O19: the next state is the state before with the listed registers and the pc changed. -/
theorem instructionFrame : Obligations.InstructionFrame := by
  intro i s t e
  obtain ⟨h, -, -, rfl⟩ := exec_next e
  refine ⟨?_, rfl, rfl, rfl, rfl, rfl, fun _ => rfl⟩
  have frame := fun r (hr : r ∉ i.writes) => registersAfter_of_notMem_writes h s hr
  cases i with
  | lha rt ra d => exact fun r hr => frame r (by simpa [Instr.writes] using hr)
  | lhau rt ra d => exact fun r hrt hra => frame r (by simp [Instr.writes, hrt, hra])
  | lhaux rt ra rb => exact fun r hrt hra => frame r (by simp [Instr.writes, hrt, hra])
  | lhax rt ra rb => exact fun r hr => frame r (by simpa [Instr.writes] using hr)

/-- Settles O20: neither the data address nor the registers written depend on the pc, so both runs load one halfword. -/
theorem completedInstructionsOnlyAdvanceThePc : Obligations.CompletedInstructionsOnlyAdvanceThePc := by
  intro i s t e
  obtain ⟨h, hr, -, rfl⟩ := exec_next e
  refine ⟨rfl, fun p t' e' => ?_⟩
  obtain ⟨h', hr', -, rfl⟩ := exec_next e'
  obtain rfl : h = h' := Option.some.inj (hr.symm.trans hr')
  exact ⟨rfl, rfl⟩

/-- Settles O21: the form check reads no register, and the data address and the values written are functions of the
registers R12 lists as read. -/
theorem instructionsReadOnlyTheirOperands : Obligations.InstructionsReadOnlyTheirOperands := by
  intro i s y hy
  by_cases hf : refusedForm i s
  · have hf' : refusedForm i { s with x := y } := hf
    rw [exec_of_refusedForm hf, exec_of_refusedForm hf']
    exact ⟨fun _ => .rfl, fun _ => .rfl, nofun⟩
  · have hf' : ¬refusedForm i { s with x := y } := hf
    rw [exec_of_not_refusedForm hf, exec_of_not_refusedForm hf', dataAddress_congr hy]
    refine ⟨fun f => by rw [loadHalf_fault, loadHalf_fault], fun r => by rw [loadHalf_refused, loadHalf_refused]; rfl,
      fun t e => ?_⟩
    obtain ⟨h, hr, hc, rfl⟩ := loadHalf_next.1 e
    exact ⟨_, loadHalf_next.2 ⟨h, hr, hc, rfl⟩, fun r hw => registersAfter_congr hy h hw⟩

/-- Settles O32: by the frame of a run, an induction over its steps. -/
theorem runsChangeOnlyRegistersAndPc : Obligations.RunsChangeOnlyRegistersAndPc := by
  intro k s t e
  rw [reaches_frame e]
  exact ⟨fun _ => rfl, rfl, rfl, rfl, rfl, rfl⟩

/-- Settles O33: in both clauses by the bytes left before `text_end`, of which each step takes four while there are any. -/
theorem runsAreStraightLines : Obligations.RunsAreStraightLines := by
  intro k s t hpc hend e
  have hte := reaches_textEnd e
  have left := reaches_bytesLeft hend e
  rw [bytesLeft_eq, bytesLeft_eq, hte] at left
  have := s.pc.isLt
  have := s.textEnd.isLt
  have := t.pc.isLt
  constructor
  · intro hle
    have ht : t.pc.toNat = min (s.pc.toNat + 4 * k) s.textEnd.toNat := by omega
    refine ⟨ht, ?_⟩
    rw [hte, ← BitVec.toNat_inj, ht]
    omega
  · intro hzero hne
    have hne : s.pc.toNat ≠ 0 := fun h => hne (BitVec.eq_of_toNat_eq h)
    have hzero : s.textEnd.toNat = 0 := by rw [hzero]; rfl
    split <;> omega

/-- Settles O26: by the read-after-write laws of the register file and the definition of each operand form. -/
theorem noRegisterIsHardwired : Obligations.NoRegisterIsHardwired := by
  intro s r q v
  exact ⟨readX_writeX_same s r v, readX_writeX_ne s v, if_pos rfl, fun hr => (if_neg hr).trans (readX_eq s r),
    readX_eq s r, readX_eq s r⟩

end Sys2Proof.Machine
end

section
/-! PROOFS. Memory and what an instruction reads of it (spec/20_memory.md). An access is said once, index by index:
which bytes `Memory.bytes` answers, which bytes `Memory.putBytes` stores, and that `bigEndian` and `bigEndianBytes` undo
each other. -/

namespace Sys2Proof.Machine

/-! ### An instruction that answers a next state, and a step that runs one -/

/-- An instruction answers a next state exactly when its form is not refused, its halfword is read and the pc may
advance. -/
theorem exec_next_iff {i : Instr} {s t : State} :
    exec i s = .next t ↔
      ¬refusedForm i s ∧ ∃ h, s.mem.memRead (dataAddress i s) 2 = some h ∧ s.canAdvance = true ∧
        t = { s with x := registersAfter i h s, pc := s.pc + 4#32 } := by
  by_cases hf : refusedForm i s
  · rw [exec_of_refusedForm hf]
    exact ⟨nofun, fun e => absurd hf e.1⟩
  · rw [exec_of_not_refusedForm hf, loadHalf_next]
    exact ⟨fun e => ⟨hf, e⟩, fun e => e.2⟩

/-- An instruction faults exactly when its form is not refused and its halfword is not read (R22, R61). -/
theorem exec_fault_iff {i : Instr} {s : State} {f : Fault} :
    exec i s = .fault f ↔
      ¬refusedForm i s ∧ s.mem.memRead (dataAddress i s) 2 = none ∧ f = .storageFault (dataAddress i s) := by
  by_cases hf : refusedForm i s
  · rw [exec_of_refusedForm hf]
    exact ⟨nofun, fun e => absurd hf e.1⟩
  · rw [exec_of_not_refusedForm hf, loadHalf_fault]
    exact ⟨fun e => ⟨hf, e⟩, fun e => e.2⟩

/-- Where fetch reads a word that decodes, the step is that instruction (R26, R64 checks 1 to 3). -/
theorem step_eq_exec {s : State} {w : Word} {i : Instr} (hne : s.pc ≠ s.textEnd) (ha : s.pc.toNat % 4 = 0)
    (hw : s.fetchWord = some w) (hd : decode w = .ok i) : step s = exec i s := by
  have he : ¬s.ended = true := fun h => hne ((ended_iff s).1 h)
  have hp : s.pcAligned = true := (pcAligned_iff s).2 ha
  have hrun : fetch s = .run i := by simp only [fetch, if_neg he, if_pos hp, hw, hd]
  simp only [step, hrun]

/-- At the end of the run a step stays (R72). -/
theorem step_of_ended {s : State} (hpc : s.pc = s.textEnd) : step s = .next s := by
  have hstop : fetch s = .stop (.next s) := if_pos ((ended_iff s).2 hpc)
  simp only [step, hstop]

/-! ### The bytes of an access (R22) -/

/-- The byte list an access answers, index by index. -/
theorem bytes_eq_some_iff {m : Memory} {a n : Nat} {bs : List Byte} :
    m.bytes a n = some bs ↔ bs.length = n ∧ ∀ k, k < n → m.byte (a + k) = bs[k]? := by
  induction n generalizing a bs with
  | zero => simp [Memory.bytes, @eq_comm _ [] bs]
  | succ n ih =>
    have hcons : m.bytes a (n + 1) = some bs ↔
        ∃ b bs', m.byte a = some b ∧ m.bytes (a + 1) n = some bs' ∧ b :: bs' = bs := by
      simp only [Memory.bytes]
      cases m.byte a <;> simp
    rw [hcons]
    constructor
    · rintro ⟨b, bs', hb, hbs', rfl⟩
      obtain ⟨hlen, hk⟩ := ih.1 hbs'
      refine ⟨congrArg (· + 1) hlen, fun k hlt => ?_⟩
      cases k with
      | zero => exact hb
      | succ k => rw [← Nat.add_assoc, Nat.add_right_comm]; exact hk k (Nat.lt_of_succ_lt_succ hlt)
    · rintro ⟨hlen, hk⟩
      cases bs with
      | nil => cases hlen
      | cons b bs' =>
        refine ⟨b, bs', hk 0 n.succ_pos, ih.2 ⟨Nat.succ.inj hlen, fun k hlt => ?_⟩, rfl⟩
        rw [Nat.add_right_comm a 1 k]
        exact hk (k + 1) (Nat.succ_lt_succ hlt)

theorem mapped_iff {m : Memory} {a : Nat} : m.mapped a = true ↔ ∃ b, m.byte a = some b := Option.isSome_iff_exists

theorem mapped_eq_false_iff {m : Memory} {a : Nat} : m.mapped a = false ↔ m.byte a = none := by
  simp [Memory.mapped]

/-- Only addresses inside the address space are mapped (R20, R22). -/
theorem lt_of_mapped {m : Memory} {a : Nat} (h : m.mapped a = true) : a < 2 ^ 32 := by
  by_contra hge
  rw [Memory.mapped, byte_outside m (Nat.le_of_not_lt hge)] at h
  cases h

theorem exists_bytes_iff {m : Memory} {a n : Nat} :
    (∃ bs, m.bytes a n = some bs) ↔ ∀ k, k < n → m.mapped (a + k) = true := by
  constructor
  · rintro ⟨bs, hbs⟩ k hk
    obtain ⟨hlen, hbyte⟩ := bytes_eq_some_iff.1 hbs
    exact mapped_iff.2 ⟨bs[k], (hbyte k hk).trans (List.getElem?_eq_getElem (hlen.symm ▸ hk))⟩
  · intro h
    choose! b hb using fun k hk => mapped_iff.1 (h k hk)
    exact ⟨(List.range n).map b, bytes_eq_some_iff.2 ⟨by simp, fun k hk => by simp [hb k hk, hk]⟩⟩

/-- A read answers a value exactly when every byte of the access is mapped. -/
theorem exists_memRead_iff {m : Memory} {addr : Addr} {n : Nat} :
    (∃ v, m.memRead addr n = some v) ↔ ∀ k, k < n → m.mapped (addr.toNat + k) = true := by
  rw [← exists_bytes_iff]
  simp [Memory.memRead]

/-- Both bytes of a halfword access mapped: it answers the halfword (R22, R23). -/
theorem memRead_two_of_bytes {m : Memory} {addr : Addr} {b0 b1 : Byte} (h0 : m.byte addr.toNat = some b0)
    (h1 : m.byte (addr.toNat + 1) = some b1) : m.memRead addr 2 = some (b0 ++ b1) := by
  rw [memRead_two, h0, h1]

/-- A halfword access fails only for an unmapped byte. -/
theorem memRead_two_eq_none {m : Memory} {addr : Addr} (h : m.memRead addr 2 = none) :
    m.mapped addr.toNat = false ∨ m.mapped (addr.toNat + 1) = false := by
  rw [mapped_eq_false_iff, mapped_eq_false_iff]
  by_contra hc
  obtain ⟨h0, h1⟩ := not_or.1 hc
  obtain ⟨b0, h0⟩ := Option.ne_none_iff_exists'.1 h0
  obtain ⟨b1, h1⟩ := Option.ne_none_iff_exists'.1 h1
  rw [memRead_two_of_bytes h0 h1] at h
  cases h

/-! ### Byte order (R23) -/

@[simp] theorem length_bigEndianBytes (n v : Nat) : (bigEndianBytes n v).length = n := by
  induction n with
  | zero => rfl
  | succ n ih => rw [bigEndianBytes, List.length_cons, ih]

theorem bigEndian_lt (bs : List Byte) : bigEndian bs < 256 ^ bs.length := by
  induction bs with
  | nil => exact Nat.one_pos
  | cons b bs ih =>
    have hb : b.toNat + 1 ≤ 256 := b.isLt
    calc b.toNat * 256 ^ bs.length + bigEndian bs
      _ < (b.toNat + 1) * 256 ^ bs.length := by rw [Nat.succ_mul]; exact Nat.add_lt_add_left ih _
      _ ≤ 256 * 256 ^ bs.length := Nat.mul_le_mul_right _ hb
      _ = 256 ^ (bs.length + 1) := by rw [Nat.pow_succ, Nat.mul_comm]

/-- The bytes depend on the low `8n` bits of the number alone. -/
theorem bigEndianBytes_add_mul_pow (n c v : Nat) : bigEndianBytes n (c * 256 ^ n + v) = bigEndianBytes n v := by
  induction n generalizing c with
  | zero => rfl
  | succ n ih =>
    have hpow : c * 256 ^ (n + 1) = c * 256 * 256 ^ n := by rw [Nat.pow_succ, Nat.mul_comm (256 ^ n), Nat.mul_assoc]
    have hhead : (c * 256 * 256 ^ n + v) / 256 ^ n = c * 256 + v / 256 ^ n := by
      rw [Nat.add_comm, Nat.add_mul_div_right _ _ (Nat.pow_pos (by decide)), Nat.add_comm]
    rw [bigEndianBytes, bigEndianBytes, hpow, ih, hhead]
    congr 1
    apply BitVec.eq_of_toNat_eq
    rw [BitVec.toNat_ofNat, BitVec.toNat_ofNat]
    omega

theorem bigEndianBytes_bigEndian (bs : List Byte) : bigEndianBytes bs.length (bigEndian bs) = bs := by
  induction bs with
  | nil => rfl
  | cons b bs ih =>
    have hhead : (b.toNat * 256 ^ bs.length + bigEndian bs) / 256 ^ bs.length = b.toNat := by
      rw [Nat.add_comm, Nat.add_mul_div_right _ _ (Nat.pow_pos (by decide)), Nat.div_eq_of_lt (bigEndian_lt bs),
        Nat.zero_add]
    rw [List.length_cons, bigEndianBytes, bigEndian, hhead, bigEndianBytes_add_mul_pow, ih, BitVec.ofNat_toNat,
      BitVec.setWidth_eq]

theorem bigEndian_bigEndianBytes (n v : Nat) : bigEndian (bigEndianBytes n v) = v % 256 ^ n := by
  induction n with
  | zero => simp [bigEndianBytes, bigEndian, Nat.mod_one]
  | succ n ih =>
    rw [bigEndianBytes, bigEndian, length_bigEndianBytes, ih, BitVec.toNat_ofNat, Nat.pow_succ 256 n, Nat.mod_mul,
      Nat.mul_comm, Nat.add_comm]

theorem getElem?_bigEndianBytes {n k : Nat} (v : Nat) (hk : k < n) :
    (bigEndianBytes n v)[k]? = some (BitVec.ofNat 8 (v / 256 ^ (n - 1 - k))) := by
  induction n generalizing k with
  | zero => exact absurd hk k.not_lt_zero
  | succ n ih =>
    cases k with
    | zero => rfl
    | succ k =>
      rw [bigEndianBytes, List.getElem?_cons_succ, ih (Nat.lt_of_succ_lt_succ hk)]
      congr 4
      omega

/-- Byte `k` of the `n` bytes of a value is the slice R23 names. -/
theorem getElem?_bigEndianBytes_eq_slice {n : Nat} (v : BitVec (8 * n)) {k : Nat} (hk : k < n) :
    (bigEndianBytes n v.toNat)[k]? = some (v.extractLsb' (8 * (n - 1 - k)) 8) := by
  have hslice : BitVec.ofNat 8 (v.toNat / 256 ^ (n - 1 - k)) = v.extractLsb' (8 * (n - 1 - k)) 8 := by
    apply BitVec.eq_of_toNat_eq
    rw [BitVec.toNat_ofNat, BitVec.extractLsb'_toNat, Nat.shiftRight_eq_div_pow, Nat.pow_mul]
  rw [getElem?_bigEndianBytes v.toNat hk, hslice]

/-! ### What a read answers and what a write stores, for every width (R22, R23) -/

/-- A read answers the value whose bytes, most significant first, lie from the address upward. -/
theorem memRead_eq_some_iff {m : Memory} {addr : Addr} {n : Nat} {v : BitVec (8 * n)} :
    m.memRead addr n = some v ↔ m.bytes addr.toNat n = some (bigEndianBytes n v.toNat) := by
  have hpow : 256 ^ n = 2 ^ (8 * n) := by rw [Nat.pow_mul]
  rw [Memory.memRead, Option.map_eq_some_iff]
  constructor
  · rintro ⟨bs, hbs, rfl⟩
    obtain ⟨rfl, -⟩ := bytes_eq_some_iff.1 hbs
    rw [BitVec.toNat_ofNat, ← hpow, Nat.mod_eq_of_lt (bigEndian_lt bs), bigEndianBytes_bigEndian, hbs]
  · intro h
    refine ⟨_, h, BitVec.eq_of_toNat_eq ?_⟩
    rw [bigEndian_bigEndianBytes, BitVec.toNat_ofNat, hpow, Nat.mod_mod, Nat.mod_eq_of_lt v.isLt]

theorem memRead_eq_some_iff_bytes {m : Memory} {addr : Addr} {n : Nat} {v : BitVec (8 * n)} :
    m.memRead addr n = some v ↔
      ∀ k, k < n → m.byte (addr.toNat + k) = some (v.extractLsb' (8 * (n - 1 - k)) 8) := by
  rw [memRead_eq_some_iff, bytes_eq_some_iff]
  constructor
  · rintro ⟨-, h⟩ k hk
    exact (h k hk).trans (getElem?_bigEndianBytes_eq_slice v hk)
  · intro h
    exact ⟨length_bigEndianBytes _ _, fun k hk => (h k hk).trans (getElem?_bigEndianBytes_eq_slice v hk).symm⟩

theorem byte_putBytes_outside {m : Memory} {a c : Nat} {bs : List Byte} (h : c < a ∨ a + bs.length ≤ c) :
    (m.putBytes a bs).byte c = m.byte c := by
  induction bs generalizing m a with
  | nil => rfl
  | cons b bs ih =>
    rw [List.length_cons] at h
    rw [Memory.putBytes, ih (by omega), byte_putByte_ne m b (by omega)]

theorem byte_putBytes_inside {m : Memory} {a k : Nat} {bs : List Byte} (htop : a + bs.length ≤ 2 ^ 32)
    (hk : k < bs.length) : (m.putBytes a bs).byte (a + k) = bs[k]? := by
  induction bs generalizing m a k with
  | nil => exact absurd hk k.not_lt_zero
  | cons b bs ih =>
    rw [List.length_cons] at htop hk
    rw [Memory.putBytes]
    cases k with
    | zero =>
      have ha : a < 2 ^ Config.addrBits := by show a < 2 ^ 32; omega
      exact (byte_putBytes_outside (.inl (Nat.lt_succ_self a))).trans (byte_putByte_same m b ha)
    | succ k =>
      have htop' : a + 1 + bs.length ≤ 2 ^ 32 := by omega
      rw [List.getElem?_cons_succ, ← ih htop' (Nat.lt_of_succ_lt_succ hk), Nat.add_right_comm, ← Nat.add_assoc]

section MemWrite
variable (m : Memory) (addr : Addr) (n : Nat) (v : BitVec (8 * n))

theorem byte_memWrite_inside (htop : addr.toNat + n ≤ 2 ^ 32) {k : Nat} (hk : k < n) :
    (m.memWrite addr n v).byte (addr.toNat + k) = some (v.extractLsb' (8 * (n - 1 - k)) 8) := by
  rw [← getElem?_bigEndianBytes_eq_slice v hk]
  exact byte_putBytes_inside (by rwa [length_bigEndianBytes]) (by rwa [length_bigEndianBytes])

theorem byte_memWrite_outside {a : Nat} (h : a < addr.toNat ∨ addr.toNat + n ≤ a) :
    (m.memWrite addr n v).byte a = m.byte a :=
  byte_putBytes_outside (by rwa [length_bigEndianBytes])

/-- A value written below the top of the address space is the value read back. -/
theorem memRead_memWrite (htop : addr.toNat + n ≤ 2 ^ 32) : (m.memWrite addr n v).memRead addr n = some v :=
  memRead_eq_some_iff_bytes.2 fun _ => byte_memWrite_inside m addr n v htop

end MemWrite

/-! ### The address a word is placed at (R71) -/

/-- Clearing the two low bits goes down to the multiple of 4. -/
theorem clearLowBits_toNat (p : Addr) : (p &&& 0xFFFFFFFC#32).toNat = p.toNat / 4 * 4 := by
  have e : p &&& 0xFFFFFFFC#32 = (p >>> 2) <<< 2 := by
    apply BitVec.eq_of_getLsbD_eq
    intro j hj
    interval_cases j <;> simp
  rw [e, BitVec.toNat_shiftLeft, BitVec.toNat_ushiftRight, Nat.shiftRight_eq_div_pow, Nat.shiftLeft_eq]
  have := p.isLt
  omega

theorem withFetchWord_toNat (s : State) (w : Word) : s.withFetchWord 32 w.toNat = s.placeWord w := by
  rw [State.withFetchWord, Nat.mod_eq_of_lt w.isLt, BitVec.ofNat_toNat, BitVec.setWidth_eq]

theorem placeWord_pc_ne_textEnd (s : State) (w : Word) : (s.placeWord w).pc ≠ (s.placeWord w).textEnd := by
  rw [placeWord_pc, placeWord_textEnd]
  split
  · bv_omega
  · rename_i h
    exact fun e => h e.symm

/-- A placed word is the word the next fetch reads. -/
theorem placeWord_fetchWord (s : State) (w : Word) : (s.placeWord w).fetchWord = some w := by
  have htop : (s.pc &&& 0xFFFFFFFC#32).toNat + 4 ≤ 2 ^ 32 := by
    have := s.pc.isLt
    rw [clearLowBits_toNat]; omega
  exact memRead_memWrite s.mem (s.pc &&& 0xFFFFFFFC#32) 4 w htop

/-! ### Another memory under the same registers (R27) -/

section OtherMemory
variable (i : Instr) (s : State) (m : Memory)

theorem dataAddress_withMem : dataAddress i { s with mem := m } = dataAddress i s := by cases i <;> rfl

theorem registersAfter_withMem (h : Half) : registersAfter i h { s with mem := m } = registersAfter i h s := by
  cases i <;> rfl

end OtherMemory

/-! ### The low halves of the registers (R21, R50) -/

/-- Two register files agree in bits 31 to 0 of every register. -/
def LowHalvesAgree (x y : Vector DWord 32) : Prop := ∀ r : Reg, y[r].extractLsb 31 0 = x[r].extractLsb 31 0

/-- Writing values with one low half keeps the agreement. -/
theorem LowHalvesAgree.set {x y : Vector DWord 32} (hxy : LowHalvesAgree x y) (q : Reg) {v u : DWord}
    (hvu : u.extractLsb 31 0 = v.extractLsb 31 0) : LowHalvesAgree (x.set q v) (y.set q u) := by
  intro r
  by_cases hq : r = q
  · subst hq
    simpa using hvu
  · rw [getElem_set_of_ne y u hq, getElem_set_of_ne x v hq]
    exact hxy r

/-- No carry comes down: the low half of a sum is the sum of the low halves. -/
theorem lowHalf_add (a b : DWord) : (a + b).extractLsb 31 0 = a.extractLsb 31 0 + b.extractLsb 31 0 :=
  BitVec.extractLsb'_add (by decide)

section LowHalves
variable {s : State} {y : Vector DWord 32} (hy : LowHalvesAgree s.x y)
include hy

/-- The base `RA0` reads a register or the literal zero, so its low half agrees too (R39). -/
theorem lowHalf_base (ra : Reg) :
    (if ra = 0 then 0#64 else y[ra]).extractLsb 31 0 = (if ra = 0 then 0#64 else s.x[ra]).extractLsb 31 0 := by
  split
  · rfl
  · exact hy ra

theorem lowHalf_effectiveAddressOf (i : Instr) :
    (effectiveAddressOf i { s with x := y }).extractLsb 31 0 = (effectiveAddressOf i s).extractLsb 31 0 := by
  cases i with
  | lha rt ra d => simp only [effectiveAddressOf, lowHalf_add, lowHalf_base hy ra]
  | lhau rt ra d => simp only [effectiveAddressOf, lowHalf_add, hy ra]
  | lhaux rt ra rb => simp only [effectiveAddressOf, lowHalf_add, hy ra, hy rb]
  | lhax rt ra rb => simp only [effectiveAddressOf, lowHalf_add, lowHalf_base hy ra, hy rb]

/-- Memory is presented the low half of the effective address alone (R21). -/
theorem dataAddress_of_lowHalvesAgree (i : Instr) : dataAddress i { s with x := y } = dataAddress i s :=
  lowHalf_effectiveAddressOf hy i

theorem registersAfter_lowHalvesAgree (i : Instr) (h : Half) :
    LowHalvesAgree (registersAfter i h s) (registersAfter i h { s with x := y }) := by
  cases i with
  | lha rt ra d => exact hy.set rt rfl
  | lhau rt ra d => exact (hy.set rt rfl).set ra (lowHalf_effectiveAddressOf hy _)
  | lhaux rt ra rb => exact (hy.set rt rfl).set ra (lowHalf_effectiveAddressOf hy _)
  | lhax rt ra rb => exact hy.set rt rfl

theorem exec_lowHalvesAgree {i : Instr} {t : State} (e : exec i s = .next t) :
    ∃ z, exec i { s with x := y } = .next { t with x := z } ∧ LowHalvesAgree t.x z := by
  obtain ⟨hf, h, hr, hc, rfl⟩ := exec_next_iff.1 e
  refine ⟨_, exec_next_iff.2 ⟨hf, h, ?_, hc, rfl⟩, registersAfter_lowHalvesAgree hy i h⟩
  rw [dataAddress_of_lowHalvesAgree hy]
  exact hr

/-- One step of the simulation: fetch reads no register, and the instruction keeps the agreement. -/
theorem step_lowHalvesAgree {t : State} (e : step s = .next t) :
    ∃ z, step { s with x := y } = .next { t with x := z } ∧ LowHalvesAgree t.x z := by
  obtain ⟨hpc, rfl⟩ | ⟨hne, ha, w, i, hw, hd, hx⟩ := step_next e
  · exact ⟨y, step_of_ended (s := { t with x := y }) hpc, hy⟩
  · obtain ⟨z, hz, hagree⟩ := exec_lowHalvesAgree hy hx
    exact ⟨z, (step_eq_exec (s := { s with x := y }) hne ha hw hd).trans hz, hagree⟩

theorem reaches_lowHalvesAgree {k : Nat} {t : State} (e : Reaches k s t) :
    ∃ z, Reaches k { s with x := y } { t with x := z } ∧ LowHalvesAgree t.x z := by
  induction k generalizing s y with
  | zero =>
    obtain rfl := reaches_zero.1 e
    exact ⟨y, reaches_zero.2 rfl, hy⟩
  | succ k ih =>
    obtain ⟨u, hs, hr⟩ := reaches_succ.1 e
    obtain ⟨z, hz, hagree⟩ := step_lowHalvesAgree hy hs
    obtain ⟨z', hz', hagree'⟩ := ih hagree hr
    exact ⟨z', reaches_succ.2 ⟨_, hz, hz'⟩, hagree'⟩

end LowHalves

/-! ### The statements -/

/-- Settles O36: agreement in the low halves is a simulation, kept by every step. -/
theorem lowHalvesDetermineTheRun : Obligations.LowHalvesDetermineTheRun :=
  fun _ _ _ _ hy e => reaches_lowHalvesAgree hy e

/-- Settles O22: the two memories answer the one data read alike, and nothing else of memory is read. -/
theorem instructionsReadOnlyTwoBytes : Obligations.InstructionsReadOnlyTwoBytes := by
  intro i s m h0 h1
  have hread : m.memRead (dataAddress i s) 2 = s.mem.memRead (dataAddress i s) 2 := by
    rw [memRead_two, memRead_two, h0, h1]
  by_cases hf : refusedForm i s
  · have hf' : refusedForm i { s with mem := m } := hf
    rw [exec_of_refusedForm hf, exec_of_refusedForm hf']
    exact ⟨fun _ => .rfl, fun _ => .rfl, nofun⟩
  · have hf' : ¬refusedForm i { s with mem := m } := hf
    rw [exec_of_not_refusedForm hf, exec_of_not_refusedForm hf', dataAddress_withMem i s m]
    refine ⟨fun f => ?_, fun r => ?_, fun t e => ?_⟩
    · rw [loadHalf_fault, loadHalf_fault, hread]
    · rw [loadHalf_refused, loadHalf_refused, hread]; rfl
    · obtain ⟨h, hr, hc, rfl⟩ := loadHalf_next.1 e
      exact loadHalf_next.2 ⟨h, hread.trans hr, hc, by rw [registersAfter_withMem i s m]; rfl⟩

/-- Settles O27: a read answers when every byte is mapped, and a mapped byte lies in the address space. -/
theorem readsAreAdmittedByMapping : Obligations.ReadsAreAdmittedByMapping := by
  intro m addr n hn
  rw [exists_memRead_iff]
  refine ⟨fun h => ⟨?_, h⟩, fun h => h.2⟩
  have hlast := lt_of_mapped (h (n - 1) (by omega))
  omega

/-- Settles O28: a read and a write of any width both go by the bytes of the value, most significant first. -/
theorem memoryIsBigEndian : Obligations.MemoryIsBigEndian :=
  ⟨fun _ _ _ _ => memRead_eq_some_iff_bytes.1, fun m addr n v htop =>
    ⟨fun _ => byte_memWrite_inside m addr n v htop, fun _ => byte_memWrite_outside m addr n v⟩⟩

/-- Settles O29: an instruction faults only where its halfword read fails, and that fails only for an unmapped byte. -/
theorem halfwordLoadsNeedNoAlignment : Obligations.HalfwordLoadsNeedNoAlignment := by
  refine ⟨fun _ _ _ _ => memRead_two_of_bytes, fun i s f e => ?_⟩
  obtain ⟨-, hr, rfl⟩ := exec_fault_iff.1 e
  exact ⟨rfl, memRead_two_eq_none hr⟩

/-- Settles O37: the placed word is read back at an aligned pc that is not the end of the run. -/
theorem placedWordIsRunNext : Obligations.PlacedWordIsRunNext := by
  intro s w i hd
  rw [withFetchWord_toNat]
  have ha : (s.placeWord w).pc.toNat % 4 = 0 := by rw [placeWord_pc, clearLowBits_toNat]; omega
  refine ⟨step_eq_exec (placeWord_pc_ne_textEnd s w) ha (placeWord_fetchWord s w) hd, rfl, fun hpc => ?_,
    fun a => byte_memWrite_outside s.mem (s.pc &&& 0xFFFFFFFC#32) 4 w⟩
  apply BitVec.eq_of_toNat_eq
  rw [placeWord_pc, clearLowBits_toNat]
  omega

/-- Settles O7: the four bytes are the word fetch reads. -/
theorem stepRunsTheInstructionAtThePc : Obligations.StepRunsTheInstructionAtThePc := by
  intro s b0 b1 b2 b3 i hne ha h0 h1 h2 h3 hd
  exact step_eq_exec hne ha (memRead_four s.mem s.pc h0 h1 h2 h3) hd

end Sys2Proof.Machine
end

section
/-! PROOFS. The encoding (spec/30_encoding.md). The fields read back what forms D and X put in a word, and put together
again they are the word; so `decode` and `encode` undo each other. A mask of the opcode map
keeps the fields that tell the rows apart. -/

namespace Sys2Proof

/-! ### The fields of a form D and of a form X word (R36 to R39) -/

@[simp] theorem fieldRT_encodeD (opcd : BitVec 6) (rt ra : Reg) (d : Half) : fieldRT (encodeD opcd rt ra d) = rt := by
  apply Fin.ext
  rw [fieldRT_val, encodeD_toNat]
  omega

@[simp] theorem fieldRA_encodeD (opcd : BitVec 6) (rt ra : Reg) (d : Half) : fieldRA (encodeD opcd rt ra d) = ra := by
  apply Fin.ext
  rw [fieldRA_val, encodeD_toNat]
  omega

@[simp] theorem fieldD_encodeD (opcd : BitVec 6) (rt ra : Reg) (d : Half) : fieldD (encodeD opcd rt ra d) = d := by
  apply BitVec.eq_of_toNat_eq
  rw [fieldD_toNat, encodeD_toNat]
  omega

@[simp] theorem fieldRT_encodeX (xo : BitVec 10) (rt ra rb : Reg) : fieldRT (encodeX xo rt ra rb) = rt := by
  apply Fin.ext
  rw [fieldRT_val, encodeX_toNat]
  omega

@[simp] theorem fieldRA_encodeX (xo : BitVec 10) (rt ra rb : Reg) : fieldRA (encodeX xo rt ra rb) = ra := by
  apply Fin.ext
  rw [fieldRA_val, encodeX_toNat]
  omega

@[simp] theorem fieldRB_encodeX (xo : BitVec 10) (rt ra rb : Reg) : fieldRB (encodeX xo rt ra rb) = rb := by
  apply Fin.ext
  rw [fieldRB_val, encodeX_toNat]
  omega

@[simp] theorem fieldXO_encodeX (xo : BitVec 10) (rt ra rb : Reg) : fieldXO (encodeX xo rt ra rb) = xo := by
  apply BitVec.eq_of_toNat_eq
  rw [fieldXO_toNat, encodeX_toNat]
  omega

@[simp] theorem fieldRc_encodeX (xo : BitVec 10) (rt ra rb : Reg) : fieldRc (encodeX xo rt ra rb) = 0#1 := by
  apply BitVec.eq_of_toNat_eq
  rw [fieldRc_toNat, encodeX_toNat, BitVec.toNat_ofNat]
  omega

/-- The fields of a form X word that no operand fills (R37). -/
theorem opcodes_encodeX (xo : BitVec 10) (rt ra rb : Reg) : fieldOPCD (encodeX xo rt ra rb) = 31#6 ∧
    fieldXO (encodeX xo rt ra rb) = xo ∧ fieldRc (encodeX xo rt ra rb) = 0#1 :=
  ⟨fieldOPCD_encodeX .., fieldXO_encodeX .., fieldRc_encodeX ..⟩

/-- The fields of form D tile the word (R36). -/
theorem encodeD_fields {w : Word} {opcd : BitVec 6} (hop : fieldOPCD w = opcd) :
    encodeD opcd (fieldRT w) (fieldRA w) (fieldD w) = w := by
  subst hop
  apply BitVec.eq_of_toNat_eq
  rw [encodeD_toNat, fieldOPCD_toNat, fieldRT_val, fieldRA_val, fieldD_toNat]
  omega

/-- The fields of form X tile the word (R37). -/
theorem encodeX_fields {w : Word} {xo : BitVec 10} (hop : fieldOPCD w = 31#6) (hxo : fieldXO w = xo)
    (hrc : fieldRc w = 0#1) : encodeX xo (fieldRT w) (fieldRA w) (fieldRB w) = w := by
  subst hxo
  have hop : w.toNat / 2 ^ 26 % 2 ^ 6 = 31 := (fieldOPCD_toNat w).symm.trans (congrArg BitVec.toNat hop)
  have hrc : w.toNat % 2 = 0 := (fieldRc_toNat w).symm.trans (congrArg BitVec.toNat hrc)
  apply BitVec.eq_of_toNat_eq
  rw [encodeX_toNat, fieldRT_val, fieldRA_val, fieldRB_val, fieldXO_toNat]
  omega

/-! ### What the decoder answers, by the fields (R41, R42, R44) -/

section Decode
variable {w : Word}

theorem decode_lha (hop : fieldOPCD w = 42#6) : decode w = .ok (.lha (fieldRT w) (fieldRA w) (fieldD w)) := by
  simp [decode, hop]

theorem decode_lhau (hop : fieldOPCD w = 43#6) : decode w = .ok (.lhau (fieldRT w) (fieldRA w) (fieldD w)) := by
  simp [decode, hop]

theorem decode_lhax (hop : fieldOPCD w = 31#6) (hxo : fieldXO w = 343#10) (hrc : fieldRc w = 0#1) :
    decode w = .ok (.lhax (fieldRT w) (fieldRA w) (fieldRB w)) := by
  simp [decode, hop, hxo, hrc]

theorem decode_lhaux (hop : fieldOPCD w = 31#6) (hxo : fieldXO w = 375#10) (hrc : fieldRc w = 0#1) :
    decode w = .ok (.lhaux (fieldRT w) (fieldRA w) (fieldRB w)) := by
  simp [decode, hop, hxo, hrc]

theorem decode_rcSet (hop : fieldOPCD w = 31#6) (hxo : fieldXO w = 343#10 ∨ fieldXO w = 375#10)
    (hrc : fieldRc w = 1#1) : decode w = .error .rcSet := by
  obtain hxo | hxo := hxo <;> simp [decode, hop, hxo, hrc]

theorem decode_notInSpec (h42 : fieldOPCD w ≠ 42#6) (h43 : fieldOPCD w ≠ 43#6)
    (h375 : ¬(fieldOPCD w = 31#6 ∧ fieldXO w = 375#10)) (h343 : ¬(fieldOPCD w = 31#6 ∧ fieldXO w = 343#10)) :
    decode w = .error .notInSpec := by
  rw [decode, if_neg h42, if_neg h43, if_neg h343, if_neg h375]

end Decode

/-- An instruction is read back from its word: each field of the word is the operand put there. -/
theorem decode_encode (i : Instr) : decode (encode i) = .ok i := by
  cases i with
  | lha rt ra d => simp [encode, decode_lha (fieldOPCD_encodeD 42#6 rt ra d)]
  | lhau rt ra d => simp [encode, decode_lhau (fieldOPCD_encodeD 43#6 rt ra d)]
  | lhaux rt ra rb => simp [encode, decode_lhaux (fieldOPCD_encodeX 375#10 rt ra rb)]
  | lhax rt ra rb => simp [encode, decode_lhax (fieldOPCD_encodeX 343#10 rt ra rb)]

/-- A word that decodes is put together again from its fields. -/
theorem encode_of_decode {w : Word} {i : Instr} (h : decode w = .ok i) : encode i = w := by
  unfold decode at h
  split at h
  next hop => cases h; exact encodeD_fields hop
  split at h
  next hop => cases h; exact encodeD_fields hop
  split at h
  next hrow =>
    split at h
    next hrc => cases h; exact encodeX_fields hrow.1 hrow.2 hrc
    next => cases h
  split at h
  next hrow =>
    split at h
    next hrc => cases h; exact encodeX_fields hrow.1 hrow.2 hrc
    next => cases h
  next => cases h

/-! ### The rows of the opcode map (R40) -/

section Rows
variable (w : Word)

theorem decodes_to_lha_iff : (∃ rt ra d, decode w = .ok (.lha rt ra d)) ↔ fieldOPCD w = 42#6 :=
  ⟨fun ⟨_, _, _, h⟩ => encode_of_decode h ▸ fieldOPCD_encodeD .., fun h => ⟨_, _, _, decode_lha h⟩⟩

theorem decodes_to_lhau_iff : (∃ rt ra d, decode w = .ok (.lhau rt ra d)) ↔ fieldOPCD w = 43#6 :=
  ⟨fun ⟨_, _, _, h⟩ => encode_of_decode h ▸ fieldOPCD_encodeD .., fun h => ⟨_, _, _, decode_lhau h⟩⟩

theorem decodes_to_lhaux_iff : (∃ rt ra rb, decode w = .ok (.lhaux rt ra rb)) ↔
    fieldOPCD w = 31#6 ∧ fieldXO w = 375#10 ∧ fieldRc w = 0#1 :=
  ⟨fun ⟨_, _, _, h⟩ => encode_of_decode h ▸ opcodes_encodeX ..,
    fun ⟨hop, hxo, hrc⟩ => ⟨_, _, _, decode_lhaux hop hxo hrc⟩⟩

theorem decodes_to_lhax_iff : (∃ rt ra rb, decode w = .ok (.lhax rt ra rb)) ↔
    fieldOPCD w = 31#6 ∧ fieldXO w = 343#10 ∧ fieldRc w = 0#1 :=
  ⟨fun ⟨_, _, _, h⟩ => encode_of_decode h ▸ opcodes_encodeX ..,
    fun ⟨hop, hxo, hrc⟩ => ⟨_, _, _, decode_lhax hop hxo hrc⟩⟩

/-- Under the mask of form D a word shows its primary opcode. -/
theorem maskD_eq_iff (opcd : BitVec 6) : w &&& 0xFC000000#32 = opcd ++ 0#26 ↔ fieldOPCD w = opcd := by
  rw [← BitVec.toNat_inj, ← BitVec.toNat_inj, maskD_toNat, append_toNat, fieldOPCD_toNat, BitVec.toNat_ofNat]
  omega

/-- Under the mask of form X a word with primary opcode 31 shows its extended opcode and `w[0]`. -/
theorem maskX_eq_iff (xo : BitVec 10) (rc : BitVec 1) : w &&& 0xFC0007FF#32 = 31#6 ++ 0#15 ++ xo ++ rc ↔
    fieldOPCD w = 31#6 ∧ fieldXO w = xo ∧ fieldRc w = rc := by
  simp only [← BitVec.toNat_inj, maskX_toNat, append_toNat, fieldOPCD_toNat, fieldXO_toNat, fieldRc_toNat,
    BitVec.toNat_ofNat]
  omega

/-- Under the mask of form X without `w[0]` a word with primary opcode 31 shows its extended opcode (R42). -/
theorem maskXO_eq_iff (xo : BitVec 10) : w &&& 0xFC0007FE#32 = 31#6 ++ 0#15 ++ xo ++ 0#1 ↔
    fieldOPCD w = 31#6 ∧ fieldXO w = xo := by
  simp only [← BitVec.toNat_inj, maskXO_toNat, append_toNat, fieldOPCD_toNat, fieldXO_toNat, BitVec.toNat_ofNat]
  omega

end Rows

end Sys2Proof

namespace Sys2Proof.Machine

/-! ### The refusals (R42 to R44) -/

/-- Where fetch reads a word the decoder rejects, the step is the refusal of the reject (R64 check 3). -/
theorem step_of_reject {s : State} {w : Word} {r : Reject} (hne : s.pc ≠ s.textEnd) (ha : s.pc.toNat % 4 = 0)
    (hw : s.fetchWord = some w) (hd : decode w = .error r) : step s = .refused (rejectReason r) := by
  have he : ¬s.ended = true := fun h => hne ((ended_iff s).1 h)
  have hp : s.pcAligned = true := (pcAligned_iff s).2 ha
  have hstop : fetch s = .stop (refuse (rejectReason r)) := by simp only [fetch, if_neg he, if_pos hp, hw, hd]
  simp only [step, hstop, refuse]

/-- The refusal `invalid_form` is the refused form's alone: a load is refused for the wrap of the pc only. -/
theorem exec_invalidForm_iff {i : Instr} {s : State} : exec i s = .refused .invalidForm ↔ refusedForm i s := by
  refine ⟨fun e => ?_, exec_of_refusedForm⟩
  by_contra hf
  rw [exec_of_not_refusedForm hf, loadHalf_refused] at e
  obtain ⟨-, -, hwrap⟩ := e
  cases hwrap

/-! ### The statements -/

/-- Settles O1: the fields of an encoded word are the operands it was made of. -/
theorem decodeOfEncodeIsTheInstruction : Obligations.DecodeOfEncodeIsTheInstruction := decode_encode

/-- Settles O2: in every row the fields the decoder reads, with the row's opcodes and `Rc = 0`, tile the word. -/
theorem encodeOfDecodeIsTheWord : Obligations.EncodeOfDecodeIsTheWord := fun _ _ => encode_of_decode

/-- Settles O3: each row's fields decide both the instruction and the masked word. -/
theorem decodeFollowsMatchAndMask : Obligations.DecodeFollowsMatchAndMask := fun w =>
  ⟨(decodes_to_lha_iff w).trans (maskD_eq_iff w 42#6).symm, (decodes_to_lhau_iff w).trans (maskD_eq_iff w 43#6).symm,
    (decodes_to_lhaux_iff w).trans (maskX_eq_iff w 375#10 0#1).symm,
    (decodes_to_lhax_iff w).trans (maskX_eq_iff w 343#10 0#1).symm⟩

/-- Settles O5: a masked word shows the fields by which the decoder rejects it. -/
theorem stepRefusesWordsOutsideTheSpec : Obligations.StepRefusesWordsOutsideTheSpec := by
  intro s w hne ha hw
  constructor
  · intro hrow
    have hd : decode w = .error .rcSet := by
      obtain hrow | hrow := hrow
      · obtain ⟨hop, hxo, hrc⟩ := (maskX_eq_iff w 343#10 1#1).1 hrow
        exact decode_rcSet hop (.inl hxo) hrc
      · obtain ⟨hop, hxo, hrc⟩ := (maskX_eq_iff w 375#10 1#1).1 hrow
        exact decode_rcSet hop (.inr hxo) hrc
    exact step_of_reject hne ha hw hd
  · intro h42 h43 h375 h343
    have hd : decode w = .error .notInSpec := decode_notInSpec (mt (maskD_eq_iff w 42#6).2 h42)
      (mt (maskD_eq_iff w 43#6).2 h43) (mt (maskXO_eq_iff w 375#10).2 h375) (mt (maskXO_eq_iff w 343#10).2 h343)
    exact step_of_reject hne ha hw hd

/-- Settles O4: the slices are the decoder's fields, and a word that decodes has the opcodes of its instruction's row. -/
theorem decodeReadsTheFields : Obligations.DecodeReadsTheFields := by
  intro w
  refine ⟨decode_lha, decode_lhau, decode_lhax, decode_lhaux, fun h42 h43 hx => ?_⟩
  cases hd : decode w with
  | error r => exact ⟨r, rfl⟩
  | ok i =>
    exfalso
    cases i with
    | lha rt ra d => exact h42 ((decodes_to_lha_iff w).1 ⟨_, _, _, hd⟩)
    | lhau rt ra d => exact h43 ((decodes_to_lhau_iff w).1 ⟨_, _, _, hd⟩)
    | lhaux rt ra rb =>
      obtain ⟨hop, hxo, hrc⟩ := (decodes_to_lhaux_iff w).1 ⟨_, _, _, hd⟩
      exact hx ⟨hop, .inr hxo, hrc⟩
    | lhax rt ra rb =>
      obtain ⟨hop, hxo, hrc⟩ := (decodes_to_lhax_iff w).1 ⟨_, _, _, hd⟩
      exact hx ⟨hop, .inl hxo, hrc⟩

/-- Settles O16: the refusal is the refused form's alone, and `lha` and `lhax` are well formed whatever their operands. -/
theorem invalidFormsAreThoseOfTheUpdateLoads : Obligations.InvalidFormsAreThoseOfTheUpdateLoads := by
  intro s rt ra rb d
  refine ⟨?_, ?_, fun e => ?_, fun e => ?_, rfl⟩
  · rw [exec_invalidForm_iff, refusedForm, wellFormed_lhau]
  · rw [exec_invalidForm_iff, refusedForm, wellFormed_lhaux]
  · obtain ⟨hwf, -⟩ := exec_invalidForm_iff.1 e
    cases hwf
  · obtain ⟨hwf, -⟩ := exec_invalidForm_iff.1 e
    cases hwf

end Sys2Proof.Machine
end

section
/-! PROOFS. The rule of each load (spec/40_load_half_algebraic.md): the word its fields make, what it answers by the two
bytes at its data address, and what it leaves in the registers it writes. -/

namespace Sys2Proof

/-! ### The word of a form, each field shifted to its place (R36, R37) -/

/-- Widened, the high part of a concatenation stands shifted over its low part. -/
theorem setWidth_append_eq_or {n k : Nat} (m : Nat) (a : BitVec n) (b : BitVec k) :
    (a ++ b).setWidth m = a.setWidth m <<< k ||| b.setWidth m := by
  apply BitVec.eq_of_getLsbD_eq
  intro j hj
  by_cases hk : j < k
  · simp [BitVec.getLsbD_append, hj, hk]
  · have hb : b.getLsbD j = false := BitVec.getLsbD_of_ge b j (Nat.le_of_not_lt hk)
    simp [BitVec.getLsbD_append, hj, hk, hb]

theorem setWidth_ofFin (r : Reg) : (BitVec.ofFin r : BitVec 5).setWidth 32 = BitVec.ofNat 32 r.val := by
  apply BitVec.eq_of_toNat_eq
  rw [BitVec.toNat_setWidth, BitVec.toNat_ofNat, BitVec.toNat_ofFin]

theorem encodeD_eq_or (opcd : BitVec 6) (rt ra : Reg) (d : Half) :
    encodeD opcd rt ra d =
      opcd.setWidth 32 <<< 26 ||| BitVec.ofNat 32 rt.val <<< 21 ||| BitVec.ofNat 32 ra.val <<< 16 |||
        d.zeroExtend 32 := by
  rw [← BitVec.setWidth_eq (encodeD opcd rt ra d)]
  simp only [encodeD, setWidth_append_eq_or, setWidth_ofFin, BitVec.shiftLeft_or_distrib, ← BitVec.shiftLeft_add]

/-- The two opcodes stand first, as the match value of R40 holds them. -/
theorem encodeX_eq_or (xo : BitVec 10) (rt ra rb : Reg) :
    encodeX xo rt ra rb =
      ((31#6).setWidth 32 <<< 26 ||| xo.setWidth 32 <<< 1) ||| BitVec.ofNat 32 rt.val <<< 21 |||
        BitVec.ofNat 32 ra.val <<< 16 ||| BitVec.ofNat 32 rb.val <<< 11 := by
  have opcodesFirst (a b c d e : Word) : a ||| b ||| c ||| d ||| e = a ||| e ||| b ||| c ||| d := by ac_rfl
  rw [← BitVec.setWidth_eq (encodeX xo rt ra rb), ← opcodesFirst]
  simp only [encodeX, setWidth_append_eq_or, setWidth_ofFin, BitVec.shiftLeft_or_distrib, ← BitVec.shiftLeft_add,
    BitVec.setWidth_zero, BitVec.or_zero]

/-! ### The loaded value (R51) -/

section LoadedValue
variable (h : Half)

/-- The 64-bit sign extension has the bits of the halfword and then copies of its bit 15. -/
theorem getLsbD_signExtend_half {j : Nat} (hj : j < 64) :
    (h.signExtend 64).getLsbD j = if j < 16 then h.getLsbD j else h.getLsbD 15 := by
  rw [BitVec.getLsbD_signExtend, BitVec.msb_eq_getLsbD_last]
  simp [hj]

theorem extractLsb_signExtend_half : (h.signExtend 64).extractLsb 15 0 = h := by
  apply BitVec.eq_of_getLsbD_eq
  intro j (hj : j < 16)
  rw [BitVec.getLsbD_extractLsb, Nat.zero_add, getLsbD_signExtend_half h (by omega)]
  simp [hj]

/-- The source's two readings of the loaded value (C1) have one low half. -/
theorem lowHalf_signExtend_half : (h.signExtend 64).extractLsb 31 0 = h.signExtend 32 := by
  apply BitVec.eq_of_getLsbD_eq
  intro j (hj : j < 32)
  rw [BitVec.getLsbD_extractLsb, Nat.zero_add, BitVec.getLsbD_signExtend, BitVec.getLsbD_signExtend]
  have hj64 : j < 64 := by omega
  simp [hj, hj64]

/-- The source's two readings of the loaded value (C1) are one value where bit 15 is 0. -/
theorem signExtend_half_of_bit_false (h15 : h.getLsbD 15 = false) :
    h.signExtend 64 = (h.signExtend 32).zeroExtend 64 := by
  have hmsb : h.msb = false := h15
  rw [BitVec.signExtend_eq_setWidth_of_msb_false hmsb, BitVec.signExtend_eq_setWidth_of_msb_false hmsb]
  exact (BitVec.setWidth_setWidth (by decide)).symm

end LoadedValue

end Sys2Proof

namespace Sys2Proof.Machine

/-! ### Which forms are not refused (R43, R56) -/

theorem not_refusedForm_of_wellFormed {i : Instr} (s : State) (hwf : i.wellFormed = true) : ¬refusedForm i s := by
  simp [hwf]

theorem not_refusedForm_of_snapshot (i : Instr) {s : State} (hp : s.policy = .snapshot) : ¬refusedForm i s := by
  simp [hp]

section Update
variable {rt ra : Reg} (h0 : ra ≠ 0) (hrt : ra ≠ rt)
include h0 hrt

theorem wellFormed_lhau_of_ne (d : Half) : (Instr.lhau rt ra d).wellFormed = true := by
  simp [Instr.wellFormed, h0, hrt]

theorem wellFormed_lhaux_of_ne (rb : Reg) : (Instr.lhaux rt ra rb).wellFormed = true := by
  simp [Instr.wellFormed, h0, hrt]

end Update

/-! ### What a form that is not refused does, by the two bytes at its data address (R14, R21, R22, R61) -/

section NotRefused
variable {i : Instr} {s : State} (hf : ¬refusedForm i s)
include hf

theorem exec_of_bytes {b0 b1 : Byte} (h0 : s.mem.byte (dataAddress i s).toNat = some b0)
    (h1 : s.mem.byte ((dataAddress i s).toNat + 1) = some b1) (hpc : s.pc + 4#32 ≠ 0#32 ∨ s.textEnd = 0#32) :
    exec i s = .next { s with x := registersAfter i (b0 ++ b1) s, pc := s.pc + 4#32 } :=
  exec_next_iff.2 ⟨hf, b0 ++ b1, memRead_two_of_bytes h0 h1, (canAdvance_iff s).2 hpc, rfl⟩

theorem exec_of_memRead_eq_none (hr : s.mem.memRead (dataAddress i s) 2 = none) :
    exec i s = .fault (.storageFault (dataAddress i s)) :=
  exec_fault_iff.2 ⟨hf, hr, rfl⟩

theorem exec_of_unmapped (h : s.mem.byte (dataAddress i s).toNat = none ∨
    s.mem.byte ((dataAddress i s).toNat + 1) = none) : exec i s = .fault (.storageFault (dataAddress i s)) := by
  refine exec_of_memRead_eq_none hf ?_
  rw [memRead_two]
  obtain h0 | h1 := h
  · rw [h0]
  · rw [h1]
    cases s.mem.byte (dataAddress i s).toNat <;> rfl

end NotRefused

/-! ### The registers an instruction writes (R51 to R56) -/

/-- In a valid form `RA` is not `RT`, so the write-back leaves the loaded value in `x[RT]`. -/
theorem registersAfter_dest {i : Instr} (h : Half) (s : State) (hwf : i.wellFormed = true) :
    (registersAfter i h s)[i.dest] = h.signExtend 64 := by
  cases i with
  | lha rt ra d => exact Vector.getElem_set_self _
  | lhax rt ra rb => exact Vector.getElem_set_self _
  | lhau rt ra d =>
    obtain ⟨-, hrt⟩ : ra ≠ 0 ∧ ra ≠ rt := by simpa [Instr.wellFormed] using hwf
    exact (getElem_set_of_ne _ _ hrt.symm).trans (Vector.getElem_set_self _)
  | lhaux rt ra rb =>
    obtain ⟨-, hrt⟩ : ra ≠ 0 ∧ ra ≠ rt := by simpa [Instr.wellFormed] using hwf
    exact (getElem_set_of_ne _ _ hrt.symm).trans (Vector.getElem_set_self _)

/-- The base register of an update form receives the whole effective address: its write is the last. -/
theorem registersAfter_lhau_base (rt ra : Reg) (d : Half) (h : Half) (s : State) :
    (registersAfter (.lhau rt ra d) h s)[ra] = s.x[ra] + d.signExtend 64 :=
  Vector.getElem_set_self _

theorem registersAfter_lhaux_base (rt ra rb : Reg) (h : Half) (s : State) :
    (registersAfter (.lhaux rt ra rb) h s)[ra] = s.x[ra] + s.x[rb] :=
  Vector.getElem_set_self _

/-- Where `RA = RT` the write-back is the one write that stays (R56). -/
theorem registersAfter_lhau_ownBase (rt : Reg) (d : Half) (h : Half) (s : State) :
    registersAfter (.lhau rt rt d) h s = s.x.set rt (s.x[rt] + d.signExtend 64) :=
  Vector.set_set _ _

theorem registersAfter_lhaux_ownBase (rt rb : Reg) (h : Half) (s : State) :
    registersAfter (.lhaux rt rt rb) h s = s.x.set rt (s.x[rt] + s.x[rb]) :=
  Vector.set_set _ _

/-! ### The statements -/

/-- Settles O12: `lha` has no invalid form, so by its two bytes it completes or faults. -/
theorem lhaFollowsItsRule : Obligations.LhaFollowsItsRule := by
  intro s rt ra d
  have hf : ¬refusedForm (.lha rt ra d) s := not_refusedForm_of_wellFormed s rfl
  exact ⟨encodeD_eq_or 42#6 rt ra d, fun _ _ h0 h1 => exec_of_bytes hf h0 h1, fun h => exec_of_unmapped hf h⟩

/-- Settles O13: a valid form completes or faults by its two bytes; an invalid one is a refused form. -/
theorem lhauFollowsItsRule : Obligations.LhauFollowsItsRule := by
  intro s rt ra d
  refine ⟨encodeD_eq_or 43#6 rt ra d, fun h0 hrt => ?_, fun hinv hp => ?_⟩
  · have hf := not_refusedForm_of_wellFormed s (wellFormed_lhau_of_ne h0 hrt d)
    exact ⟨fun _ _ h0 h1 => exec_of_bytes hf h0 h1, fun h => exec_of_unmapped hf h⟩
  · exact exec_of_refusedForm ⟨(wellFormed_lhau rt ra d).2 hinv, hp⟩

/-- Settles O14: a valid form completes or faults by its two bytes; an invalid one is a refused form. -/
theorem lhauxFollowsItsRule : Obligations.LhauxFollowsItsRule := by
  intro s rt ra rb
  refine ⟨encodeX_eq_or 375#10 rt ra rb, fun h0 hrt => ?_, fun hinv hp => ?_⟩
  · have hf := not_refusedForm_of_wellFormed s (wellFormed_lhaux_of_ne h0 hrt rb)
    exact ⟨fun _ _ h0 h1 => exec_of_bytes hf h0 h1, fun h => exec_of_unmapped hf h⟩
  · exact exec_of_refusedForm ⟨(wellFormed_lhaux rt ra rb).2 hinv, hp⟩

/-- Settles O15: `lhax` has no invalid form, so by its two bytes it completes or faults. -/
theorem lhaxFollowsItsRule : Obligations.LhaxFollowsItsRule := by
  intro s rt ra rb
  have hf : ¬refusedForm (.lhax rt ra rb) s := not_refusedForm_of_wellFormed s rfl
  exact ⟨encodeX_eq_or 343#10 rt ra rb, fun _ _ h0 h1 => exec_of_bytes hf h0 h1, fun h => exec_of_unmapped hf h⟩

/-- Settles O17: under `snapshot` no form is refused, so an invalid one runs as a valid one; where `RA = RT` its two
writes are to one register. -/
theorem snapshotPolicyRunsInvalidForms : Obligations.SnapshotPolicyRunsInvalidForms := by
  intro s rt rb d hp hpc
  have hf (i : Instr) : ¬refusedForm i s := not_refusedForm_of_snapshot i hp
  refine ⟨fun ea b0 b1 h0 h1 => ⟨?baseZero, ?baseZeroIndexed, ?ownBase, ?ownBaseIndexed⟩, fun ra _ =>
    ⟨fun hr => ?fault, fun hr => ?faultIndexed⟩⟩
  case baseZero =>
    rintro - rfl
    exact exec_of_bytes (hf (.lhau rt 0 d)) h0 h1 hpc
  case baseZeroIndexed =>
    rintro - rfl
    exact exec_of_bytes (hf (.lhaux rt 0 rb)) h0 h1 hpc
  case ownBase =>
    rintro rfl
    rw [exec_of_bytes (hf (.lhau rt rt d)) h0 h1 hpc, registersAfter_lhau_ownBase]
  case ownBaseIndexed =>
    rintro rfl
    rw [exec_of_bytes (hf (.lhaux rt rt rb)) h0 h1 hpc, registersAfter_lhaux_ownBase]
  case fault => exact exec_of_memRead_eq_none (hf (.lhau rt ra d)) hr
  case faultIndexed => exact exec_of_memRead_eq_none (hf (.lhaux rt ra rb)) hr

/-- Settles O23: `x[RT]` is the sign extension of the halfword read. -/
theorem destinationHoldsTheSignExtendedHalfword : Obligations.DestinationHoldsTheSignExtendedHalfword := by
  intro i s t hwf e
  obtain ⟨h, hr, -, rfl⟩ := exec_next e
  refine ⟨h, hr, ?_⟩
  rw [registersAfter_dest h s hwf]
  refine ⟨extractLsb_signExtend_half h, fun j hlo hhi => ?_⟩
  rw [getLsbD_signExtend_half h hhi, if_neg (Nat.not_lt.2 hlo)]

/-- Settles O24: the write-back is the last write, in an invalid form too. -/
theorem updateFormsWriteBackTheWholeSum : Obligations.UpdateFormsWriteBackTheWholeSum := by
  intro s t rt ra rb d
  constructor <;> intro e <;> obtain ⟨h, -, -, rfl⟩ := exec_next e
  · exact registersAfter_lhau_base rt ra d h s
  · exact registersAfter_lhaux_base rt ra rb h s

/-- Settles O25: both sign extensions have one low half, and the data address is the low half of the sum written
back. -/
theorem lowHalvesAgreeWithTheSnapshot : Obligations.LowHalvesAgreeWithTheSnapshot := by
  intro i s t h e hr
  obtain ⟨h', hr', -, rfl⟩ := exec_next e
  obtain rfl : h = h' := Option.some.inj (hr.symm.trans hr')
  constructor
  · intro hwf
    rw [registersAfter_dest h s hwf]
    exact ⟨lowHalf_signExtend_half h, signExtend_half_of_bit_false h⟩
  · cases i with
    | lha rt ra d => trivial
    | lhax rt ra rb => trivial
    | lhau rt ra d => exact congrArg (BitVec.extractLsb 31 0) (registersAfter_lhau_base rt ra d h s)
    | lhaux rt ra rb => exact congrArg (BitVec.extractLsb 31 0) (registersAfter_lhaux_base rt ra rb h s)

end Sys2Proof.Machine
end

section
/-! PROOFS. How a step stops or completes (spec/60_exceptions.md). Each check of R64 has a lemma for the outcome of a step
it stops; that these and the instruction's own outcomes are all there are is said once, in `step_cases`. -/

namespace Sys2Proof.Machine

/-! ### Reads of two bytes and the advance of the pc (R14, R22) -/

theorem exists_memRead_two_iff {m : Memory} {addr : Addr} :
    (∃ h, m.memRead addr 2 = some h) ↔ m.mapped addr.toNat = true ∧ m.mapped (addr.toNat + 1) = true := by
  rw [exists_memRead_iff]
  exact ⟨fun h => ⟨h 0 (by decide), h 1 (by decide)⟩, fun ⟨h0, h1⟩ => Nat.forall_lt_succ_right.2
    ⟨Nat.forall_lt_succ_right.2 ⟨nofun, h0⟩, h1⟩⟩

theorem canAdvance_eq_false_iff (s : State) : s.canAdvance = false ↔ s.pc + 4#32 = 0#32 ∧ s.textEnd ≠ 0#32 := by
  rw [← Bool.not_eq_true, canAdvance_iff, not_or, not_not]

/-! ### What the decoder's rejections say of a word (R40, R42) -/

/-- The rejection `rc_set` is that of the two patterns with `w[0] = 1` alone. -/
theorem fields_of_decode_rcSet {w : Word} (hd : decode w = .error .rcSet) :
    fieldOPCD w = 31#6 ∧ (fieldXO w = 343#10 ∨ fieldXO w = 375#10) ∧ fieldRc w = 1#1 := by
  have hrc (h : fieldRc w ≠ 0#1) : fieldRc w = 1#1 := by bv_omega
  unfold decode at hd
  split at hd
  next => cases hd
  split at hd
  next => cases hd
  split at hd
  next hrow =>
    split at hd
    next => cases hd
    next h => exact ⟨hrow.1, .inl hrow.2, hrc h⟩
  split at hd
  next hrow =>
    split at hd
    next => cases hd
    next h => exact ⟨hrow.1, .inr hrow.2, hrc h⟩
  next => cases hd

theorem mask_of_decode_rcSet {w : Word} (hd : decode w = .error .rcSet) :
    w &&& 0xFC0007FF#32 = 0x7C0002AF#32 ∨ w &&& 0xFC0007FF#32 = 0x7C0002EF#32 := by
  obtain ⟨hop, hxo, hrc⟩ := fields_of_decode_rcSet hd
  exact hxo.imp (fun hxo => (maskX_eq_iff w 343#10 1#1).2 ⟨hop, hxo, hrc⟩)
    (fun hxo => (maskX_eq_iff w 375#10 1#1).2 ⟨hop, hxo, hrc⟩)

/-- A rejected word matches no row of the opcode map. -/
theorem masks_of_decode_error {w : Word} {r : Reject} (hd : decode w = .error r) :
    w &&& 0xFC000000#32 ≠ 0xA8000000#32 ∧ w &&& 0xFC000000#32 ≠ 0xAC000000#32 ∧
      w &&& 0xFC0007FF#32 ≠ 0x7C0002EE#32 ∧ w &&& 0xFC0007FF#32 ≠ 0x7C0002AE#32 := by
  obtain ⟨hlha, hlhau, hlhaux, hlhax⟩ := decodeFollowsMatchAndMask w
  rw [Ne, Ne, Ne, Ne, ← hlha, ← hlhau, ← hlhaux, ← hlhax, hd]
  exact ⟨nofun, nofun, nofun, nofun⟩

theorem rejectReason_cases (r : Reject) :
    (r = .rcSet ∧ rejectReason r = .rcSet) ∨ rejectReason r = .notInSpec := by
  cases r with
  | rcSet => exact .inl ⟨rfl, rfl⟩
  | notInSpec => exact .inr rfl
  | tooFewBytes => exact .inr rfl

/-! ### What an instruction is refused for (R14, R43) -/

/-- An instruction is refused exactly for its form, or, its form passing and its halfword read, for the wrap of the pc. -/
theorem exec_refused_iff {i : Instr} {s : State} {r : Refusal} :
    exec i s = .refused r ↔
      (refusedForm i s ∧ r = .invalidForm) ∨
      (¬refusedForm i s ∧ (∃ h, s.mem.memRead (dataAddress i s) 2 = some h) ∧ s.canAdvance = false ∧ r = .pcWrap) := by
  by_cases hf : refusedForm i s
  · rw [exec_of_refusedForm hf, Host.Outcome.refused.injEq]
    exact ⟨fun e => .inl ⟨hf, e.symm⟩, fun e => (e.resolve_right fun h => h.1 hf).2.symm⟩
  · rw [exec_of_not_refusedForm hf, loadHalf_refused]
    exact ⟨fun e => .inr ⟨hf, e⟩, fun e => (e.resolve_left fun h => hf h.1).2⟩

/-- Only an update load has invalid forms (R43). -/
theorem update_of_not_wellFormed {i : Instr} (hwf : i.wellFormed = false) :
    ∃ rt ra, (ra = 0 ∨ ra = rt) ∧ ((∃ d, i = .lhau rt ra d) ∨ ∃ rb, i = .lhaux rt ra rb) := by
  cases i with
  | lha rt ra d => cases hwf
  | lhau rt ra d => exact ⟨rt, ra, (wellFormed_lhau rt ra d).1 hwf, .inl ⟨d, rfl⟩⟩
  | lhaux rt ra rb => exact ⟨rt, ra, (wellFormed_lhaux rt ra rb).1 hwf, .inr ⟨rb, rfl⟩⟩
  | lhax rt ra rb => cases hwf

/-! ### The first two checks of a step, and all a step can do (R64) -/

section Checks
variable {s : State} (hne : s.pc ≠ s.textEnd)
include hne

theorem step_of_misaligned (ha : s.pc.toNat % 4 ≠ 0) : step s = .refused .pcMisaligned := by
  have he : ¬s.ended = true := fun h => hne ((ended_iff s).1 h)
  have hp : ¬s.pcAligned = true := fun h => ha ((pcAligned_iff s).1 h)
  have hstop : fetch s = .stop (refuse .pcMisaligned) := by simp only [fetch, if_neg he, if_neg hp]
  simp only [step, hstop, refuse]

theorem step_of_unadmittedFetch (ha : s.pc.toNat % 4 = 0) (hw : s.fetchWord = none) :
    step s = .fault (.storageFault s.pc) := by
  have he : ¬s.ended = true := fun h => hne ((ended_iff s).1 h)
  have hp : s.pcAligned = true := (pcAligned_iff s).2 ha
  have hstop : fetch s = .stop (raiseStorageFault s.pc) := by simp only [fetch, if_neg he, if_pos hp, hw]
  simp only [step, hstop, raiseStorageFault]

/-- Away from the end of the run one of checks 1 to 3 stops the step, or the step is an instruction. -/
theorem step_cases :
    (s.pc.toNat % 4 ≠ 0 ∧ step s = .refused .pcMisaligned) ∨
    (s.pc.toNat % 4 = 0 ∧
      ((s.fetchWord = none ∧ step s = .fault (.storageFault s.pc)) ∨
       ∃ w, s.fetchWord = some w ∧
        ((∃ r, decode w = .error r ∧ step s = .refused (rejectReason r)) ∨
         ∃ i, decode w = .ok i ∧ step s = exec i s))) := by
  by_cases ha : s.pc.toNat % 4 = 0
  · refine .inr ⟨ha, ?_⟩
    cases hw : s.fetchWord with
    | none => exact .inl ⟨rfl, step_of_unadmittedFetch hne ha hw⟩
    | some w =>
      refine .inr ⟨w, rfl, ?_⟩
      cases hd : decode w with
      | error r => exact .inl ⟨r, rfl, step_of_reject hne ha hw hd⟩
      | ok i => exact .inr ⟨i, rfl, step_eq_exec hne ha hw hd⟩
  · exact .inl ⟨ha, step_of_misaligned hne ha⟩

end Checks

/-! ### The statements -/

/-- Settles O8: each check has its outcome, given that those before it passed. -/
theorem checksAreMadeInOrder : Obligations.ChecksAreMadeInOrder := by
  intro s hne
  refine ⟨step_of_misaligned hne, fun ha => ⟨step_of_unadmittedFetch hne ha, fun w hw =>
    ⟨fun r hd => ?rejected, fun i hd => ?instruction⟩⟩⟩
  case rejected =>
    rw [step_of_reject hne ha hw hd, Host.Outcome.refused.injEq, Host.Outcome.refused.injEq]
    exact (rejectReason_cases r).imp_left And.right
  case instruction =>
    rw [step_eq_exec hne ha hw hd]
    refine ⟨exec_of_refusedForm, fun hf => ⟨exec_of_memRead_eq_none hf, fun h hr => ⟨fun hwrap => ?_, fun hadv => ?_⟩⟩⟩
    · exact exec_refused_iff.2 (.inr ⟨hf, ⟨h, hr⟩, (canAdvance_eq_false_iff s).2 hwrap, rfl⟩)
    · have hadv : s.canAdvance = true := by rwa [← canAdvance_eq_false_iff, Bool.not_eq_false] at hadv
      have hx := exec_next_iff.2 ⟨hf, h, hr, hadv, rfl⟩
      exact ⟨_, hx, hx, rfl⟩

/-- Settles O10: a step that is refused failed check 1 or 3, or its instruction check 4 or 6. -/
theorem refusalsAreTheClosedList : Obligations.RefusalsAreTheClosedList := by
  intro s r e
  have hne : s.pc ≠ s.textEnd := mt step_of_ended (by rw [e]; exact nofun)
  obtain ⟨ha, hs⟩ | ⟨-, ⟨-, hs⟩ | ⟨w, hw, ⟨q, hd, hs⟩ | ⟨i, hd, hs⟩⟩⟩ := step_cases hne <;> rw [hs] at e
  · exact .inl ⟨(Host.Outcome.refused.inj e).symm, ha⟩
  · cases e
  · refine .inr (.inr ⟨w, hw, ?_⟩)
    have hr : rejectReason q = r := Host.Outcome.refused.inj e
    obtain ⟨rfl, hq⟩ | hq := rejectReason_cases q
    · exact .inl ⟨hr.symm.trans hq, mask_of_decode_rcSet hd⟩
    · exact .inr (.inl ⟨hr.symm.trans hq, masks_of_decode_error hd⟩)
  · obtain ⟨⟨hwf, hp⟩, rfl⟩ | ⟨-, -, hc, rfl⟩ := exec_refused_iff.1 e
    · obtain ⟨rt, ra, hra, hi⟩ := update_of_not_wellFormed hwf
      refine .inr (.inr ⟨w, hw, .inr (.inr ⟨rfl, hp, rt, ra, hra, ?_⟩)⟩)
      exact hi.imp (fun ⟨d, hi⟩ => ⟨d, hi ▸ hd⟩) (fun ⟨rb, hi⟩ => ⟨rb, hi ▸ hd⟩)
    · obtain ⟨hwrap, hend⟩ := (canAdvance_eq_false_iff s).1 hc
      exact .inr (.inl ⟨rfl, by bv_omega, hend⟩)

/-- Settles O11: a step makes two accesses, the fetch and the data read of a form that is not refused. -/
theorem faultsAreUnadmittedAccesses : Obligations.FaultsAreUnadmittedAccesses := by
  intro s f
  constructor
  · intro e
    have hne : s.pc ≠ s.textEnd := mt step_of_ended (by rw [e]; exact nofun)
    refine ⟨hne, ?_⟩
    obtain ⟨-, hs⟩ | ⟨ha, ⟨hw, hs⟩ | ⟨w, hw, ⟨q, -, hs⟩ | ⟨i, hd, hs⟩⟩⟩ := step_cases hne <;> rw [hs] at e
    · cases e
    · exact ⟨ha, .inl ⟨hw, (Host.Outcome.fault.inj e).symm⟩⟩
    · cases e
    · exact ⟨ha, .inr ⟨w, i, hw, hd, exec_fault_iff.1 e⟩⟩
  · rintro ⟨hne, ha, ⟨hw, rfl⟩ | ⟨w, i, hw, hd, hread⟩⟩
    · exact step_of_unadmittedFetch hne ha hw
    · exact (step_eq_exec hne ha hw hd).trans (exec_fault_iff.2 hread)

/-- Settles O18: the halfword is read exactly when both its bytes are mapped, and `exec_next_iff` asks nothing more. -/
theorem instructionsCompleteExactlyWhen : Obligations.InstructionsCompleteExactlyWhen := by
  intro i s
  rw [← canAdvance_iff, ← and_assoc (a := s.mem.mapped _ = true), ← exists_memRead_two_iff]
  constructor
  · rintro ⟨t, e⟩
    obtain ⟨hf, h, hr, hc, -⟩ := exec_next_iff.1 e
    exact ⟨hf, ⟨h, hr⟩, hc⟩
  · rintro ⟨hf, ⟨h, hr⟩, hc⟩
    exact ⟨_, exec_next_iff.2 ⟨hf, h, hr, hc, rfl⟩⟩

end Sys2Proof.Machine
end

section
/-! PROOFS. Launch, runs and their end (spec/70_reset_and_hazards.md). What every step keeps, every run keeps: this is said
once, in `reaches_keeps`, and the two statements about runs are each a predicate one step keeps. -/

namespace Sys2Proof.Machine

/-! ### What every step keeps -/

/-- The induction over a run, done once. -/
theorem reaches_keeps {P : State → Prop} (hstep : ∀ s t, P s → step s = .next t → P t) {k : Nat} {s t : State}
    (hs : P s) (e : Reaches k s t) : P t := by
  induction k generalizing s with
  | zero => exact reaches_zero.1 e ▸ hs
  | succ k ih =>
    obtain ⟨u, hu, hr⟩ := reaches_succ.1 e
    exact ih (hstep s u hs hu) hr

/-- Short of `text_end` an aligned pc has a whole word before it, so the next pc is at most `text_end`; what is left of the
program is then part of what was left before, in the same memory (R13, R71). -/
theorem step_keeps_programReady {s t : State} (hs : s.ProgramReady) (e : step s = .next t) : t.ProgramReady := by
  obtain ⟨-, rfl⟩ | ⟨hne, -, hc, ht⟩ := step_next_cases e
  · exact hs
  · obtain ⟨hpc, hend, hle, hmap⟩ := hs
    have hne : s.pc.toNat ≠ s.textEnd.toNat := fun h => hne (BitVec.eq_of_toNat_eq h)
    have hnz : s.textEnd ≠ 0#32 := fun h => hne (Nat.le_antisymm hle (h ▸ Nat.zero_le _))
    have hup := add_four_toNat hpc (((canAdvance_iff s).1 hc).resolve_right hnz)
    rw [ht]
    refine ⟨add_four_aligned hpc, hend, ?_, fun a ha => hmap a ?_⟩
    · show (s.pc + 4#32).toNat ≤ s.textEnd.toNat
      omega
    · have ha : (s.pc + 4#32).toNat ≤ a := ha
      omega

/-- Where the program is ready and the run has not ended, the four bytes at the pc are bytes of the program (R26, R71). -/
theorem fetch_admitted_of_programReady {s : State} (hs : s.ProgramReady) (hne : s.pc ≠ s.textEnd) :
    ∃ w, s.mem.memRead s.pc 4 = some w := by
  obtain ⟨hpc, hend, hle, hmap⟩ := hs
  have hne : s.pc.toNat ≠ s.textEnd.toNat := fun h => hne (BitVec.eq_of_toNat_eq h)
  exact exists_memRead_iff.2 fun k hk => hmap _ (Nat.le_add_right _ k) (by omega)

/-- The pc is past a `text_end` that is not 0 (R72). -/
def State.PastEnd (s : State) : Prop := s.textEnd.toNat < s.pc.toNat ∧ s.textEnd ≠ 0#32

theorem step_keeps_pastEnd {s t : State} (hs : s.PastEnd) (e : step s = .next t) : t.PastEnd :=
  (stepKeepsThePcPastTheEnd s t hs e).1

theorem pc_ne_textEnd_of_pastEnd {s : State} (hs : s.PastEnd) : s.pc ≠ s.textEnd :=
  fun h => hs.1.ne (congrArg BitVec.toNat h.symm)

/-! ### The statements -/

/-- Settles O35: every step keeps the program ready, and a ready program's next word is mapped. -/
theorem launchedProgramsAreAlwaysFetched : Obligations.LaunchedProgramsAreAlwaysFetched := by
  intro k s t hs e
  have ht : t.ProgramReady := reaches_keeps (fun _ _ => step_keeps_programReady) hs e
  exact ⟨ht, fetch_admitted_of_programReady ht⟩

/-- Settles O34: the run keeps the pc past its end, by O38 at every step, so the pc is never `text_end`. -/
theorem runsPastTheirEndNeverEnd : Obligations.RunsPastTheirEndNeverEnd := by
  rintro s t hlt hnz ⟨k, e, hpc⟩
  have hpast : t.PastEnd := reaches_keeps (fun _ _ => step_keeps_pastEnd) ⟨hlt, hnz⟩ e
  exact pc_ne_textEnd_of_pastEnd hpast hpc

/-- Settles O9: the end-of-run test comes before every check of fetch. -/
theorem endOfRunIsFinal : Obligations.EndOfRunIsFinal := fun _ => step_of_ended

/-- Settles O31: memory and the opaque banks are empty at reset, and the pc is 0. -/
theorem invariantHoldsAtReset : Obligations.InvariantHoldsAtReset := by
  have hmem : Memory.wf [] := ⟨.nil, nofun⟩
  have hbank : OpaqueBank.wf [] := ⟨.nil, nofun⟩
  exact ⟨hmem, hbank, hbank, hbank, rfl⟩

end Sys2Proof.Machine
end

section
/-! PROOFS. Words of the test vectors (spec/95_test_vectors.md section 2.1). A word that decodes is the word its instruction
encodes to; a word that does not shows, by its fields, which rejection it gets. -/

namespace Sys2Proof

/-- The word an instruction encodes to decodes to it (R36 to R41). -/
theorem decode_of_encode_eq {i : Instr} {w : Word} (h : encode i = w) : decode w = .ok i := h ▸ decode_encode i

/-- Settles O6: the first six are the words their instructions encode to; `0x7D0952AF` has the opcodes of `lhax` with
`Rc = 1`, and `0x7C0002AC` has the extended opcode 342, of no row. -/
theorem sampleWordsDecode : Obligations.SampleWordsDecode := by
  refine ⟨?_, ?_, ?_, ?_, ?_, ?_, ?rcSet, ?notInSpec⟩
  case rcSet => exact decode_rcSet (by decide) (.inl (by decide)) (by decide)
  case notInSpec => exact decode_notInSpec (by decide) (by decide) (by decide) (by decide)
  all_goals exact decode_of_encode_eq (by decide)

end Sys2Proof
end
